-- ==== Sys2Proof/Word.lean ====
section
/-! DEFINITION. The word types: bytes and the 16-bit measurement values. -/

namespace Sys2Proof

/-- A byte: an unsigned 8-bit integer; `+` on it is the rule's `+8` (00_scope.md R6). -/
abbrev Byte := BitVec 8

/-- An unsigned 16-bit measurement value (20_memory.md R34). -/
abbrev Half := BitVec 16

end Sys2Proof
end

