-- ==== Sys2Proof/Config.lean ====
section
/-! DEFINITION. The build-time parameters' type and legal ranges, and the free values the spec leaves unspecified.
The parameters' VALUES stand in Machine/Params.lean. -/

namespace Sys2Proof

/-- The parameters fixed at build time (00_scope.md R2 to R5). -/
structure Params where
  /-- RX_CAP, capacity in bytes of the decoder's payload buffer (R2). -/
  rxCap : Nat
  /-- TX_CAP, capacity in bytes of the encoder's output frame (R3). -/
  txCap : Nat
  /-- RX_HEADER, the header byte the decoder scans for (R4). -/
  rxHeader : Byte
  /-- TX_HEADER, the first byte of every frame the encoder produces (R5). -/
  txHeader : Byte
  deriving DecidableEq, Repr

/-- The legal ranges of R2 and R3 (92_eei_decisions.md D2), and R42's "distinct" headers. A configuration
outside them is refused (93_implementation_defined.md U8): no theorem of the model speaks of one. -/
abbrev Params.Legal (P : Params) : Prop :=
  1 ≤ P.rxCap ∧ P.rxCap ≤ 256 ∧ 3 ≤ P.txCap ∧ P.txCap ≤ 258 ∧ P.rxHeader ≠ P.txHeader

/-- FREE VALUE: what `sum` holds after reset number `draw` (10_state.md R23, D6; DESIGN CHOICE, log entry 1). -/
opaque Config.resetSum : Nat → Byte

/-- FREE VALUE: what the 8-bit register `len` holds after reset number `draw` (R23, D6; log entry 1). -/
opaque Config.resetLen : Nat → Byte

/-- FREE VALUE: what the 8-bit register `cur` holds after reset number `draw` (R23, D6; log entry 1). -/
opaque Config.resetCur : Nat → Byte

/-- FREE VALUE: what buffer cell `i` holds after reset number `draw` until it is first written
(R23, D6; DESIGN CHOICE, log entry 3). -/
opaque Config.resetCell : (draw : Nat) → (i : Nat) → Byte

end Sys2Proof
end

