-- ==== Sys2Proof/Machine/Params.lean ====
section
/-! DEFINITION. This hardware's parameter values. -/

namespace Sys2Proof

/-- The values of this hardware (00_scope.md R2 to R5 and section 3's table; D1, log entry 10). -/
abbrev params : Params where
  rxCap := 16
  txCap := 16
  rxHeader := 0x16
  txHeader := 0x11

end Sys2Proof
end

