-- ==== Sys2Proof/Syntax.lean ====
section
/-! DEFINITION. The instructions (one constructor per row of the opcode table), the forms in which they are handed
to the machine, and the decode mode. -/

namespace Sys2Proof

/-- The state tag `st`: four values, each telling what the next byte means (10_state.md R11). -/
inductive Tag where
  | awaitingHeader
  | awaitingLength
  | receivingPayload
  | awaitingChecksum
  deriving DecidableEq, Repr

/-- What selects the class of a received byte: the tag, and `cur`, `len` or `sum` (30_encoding.md R46). -/
structure Mode where
  st : Tag
  sum : Byte
  len : Nat
  cur : Nat
  deriving DecidableEq, Repr

/-- The two requests of the sensor protocol (30_encoding.md R51). -/
inductive Command where
  | fullMeasurement
  | pm25Only
  deriving DecidableEq, Repr

/-- The payload of a full-measurement response, offsets 0 (the echo) to 12, and what follows (R53).
`u1` … `u10` are uninterpreted (42_payload_views.md R95). -/
structure FullPayload where
  u1 : Byte
  u2 : Byte
  pm2_5 : Half
  u5 : Byte
  u6 : Byte
  pm1_0 : Half
  u9 : Byte
  u10 : Byte
  pm10 : Half
  /-- Bytes at offsets 13 and up: the layout states nothing of them and does not forbid them (R53). -/
  rest : List Byte
  deriving DecidableEq, Repr

/-- The payload of a PM2.5-only response, offsets 0 (the echo) to 4, and what follows (R54). -/
structure Pm25Payload where
  x1 : Byte
  x2 : Byte
  pm2_5 : Half
  rest : List Byte
  deriving DecidableEq, Repr

/-- The rows of spec/opcode_table.json, one constructor each. -/
inductive Instr where
  /-- HDR.SYNC (R62): the byte is RX_HEADER. -/
  | hdrSync
  /-- HDR.SKIP (R63). -/
  | hdrSkip (b : Byte)
  /-- LEN.ZERO (R65): the byte is 0. -/
  | lenZero
  /-- LEN.ACCEPT (R64). -/
  | lenAccept (n : Byte)
  /-- LEN.REJECT (R66). -/
  | lenReject (n : Byte)
  /-- PAY.STORE (R67). -/
  | payStore (b : Byte)
  /-- PAY.LAST (R68). -/
  | payLast (b : Byte)
  /-- CHK.VALID (R69). -/
  | chkValid (c : Byte)
  /-- CHK.INVALID (R70). -/
  | chkInvalid (c : Byte)
  /-- FEED (R61): dispatches to the class the byte selects. -/
  | feed (b : Byte)
  /-- ENCODE.OK (R83). -/
  | encodeOk (p : List Byte)
  /-- ENCODE.OVERFLOW (R82). -/
  | encodeOverflow (p : List Byte)
  /-- FRAME.RESPONSE (R41): length byte, payload and checksum of a frame that starts with RX_HEADER. -/
  | frameResponse (n : Byte) (p : List Byte) (c : Byte)
  /-- FRAME.REQUEST (R42): length byte, payload and checksum of a frame that starts with TX_HEADER. -/
  | frameRequest (n : Byte) (p : List Byte) (c : Byte)
  /-- CMD.FULL_MEASUREMENT (R89). -/
  | cmdFullMeasurement
  /-- CMD.PM25_ONLY (R89). -/
  | cmdPm25Only
  /-- RSP.FULL_MEASUREMENT (R53). -/
  | rspFullMeasurement (r : FullPayload)
  /-- RSP.PM25_ONLY (R54). -/
  | rspPm25Only (r : Pm25Payload)
  /-- VIEW.ECHO (R92). -/
  | viewEcho
  /-- VIEW.FULL_MEASUREMENT (R93). -/
  | viewFullMeasurement
  /-- VIEW.PM25_ONLY (R94). -/
  | viewPm25Only
  deriving DecidableEq, Repr

/-- The table's `format` column (R58). -/
inductive Format where
  | rxByte
  | op
  | frame
  | payload
  | view
  deriving DecidableEq, Repr

/-- The views of 42_payload_views.md. -/
inductive View where
  | echo
  | fullMeasurement
  | pm25Only
  deriving DecidableEq, Repr

/-- What the machine is handed for one instruction, in the shape its row's `format` gives it: the engine has no
instruction memory (10_state.md R13), and these are what stands where other machines have instruction words. -/
inductive Call where
  /-- RXBYTE: a byte on the receive port (R134's `rx_byte`), whose class the mode selects. -/
  | rx (b : Byte)
  /-- OP `FEED b` (R7). -/
  | feed (b : Byte)
  /-- OP `ENCODE P` (R7). -/
  | encode (p : List Byte)
  /-- FRAME: the bytes of a whole frame, first byte first (R33). -/
  | frame (bs : List Byte)
  /-- PAYLOAD: the bytes of a response's payload, offset 0 first. -/
  | payload (bs : List Byte)
  /-- VIEW: the caller reads a view of the payload output. -/
  | view (v : View)
  deriving DecidableEq, Repr

/-- Why the decoder rejects a byte string handed over as a frame or a payload: it is the word of no row. A step still
has the effect its bytes have on the receive side (Frames.lean, log entry 9). -/
inductive DecodeError where
  /-- Fewer than two bytes: no header and length (R41). -/
  | tooShort
  /-- The byte count is not length byte + 3 (R45). -/
  | wrongLength
  /-- The bytes do not sum to 0 mod 256 (R44). -/
  | badChecksum
  /-- The first byte is neither RX_HEADER nor TX_HEADER (R42). -/
  | badHeader
  /-- The payload's first byte is no command code the spec gives a layout for (R50, U11). -/
  | unknownEcho
  /-- The payload is shorter than its layout (R53, R54). -/
  | shortPayload
  /-- The payload has more than 255 bytes, which no length byte can express (R43). -/
  | longPayload
  deriving DecidableEq, Repr

end Sys2Proof
end

