-- ==== Sys2Proof/Machine/Operands.lean ====
section
/-! DEFINITION. Operand assembly, the complete list of 30_encoding.md R57: checksum arithmetic, frames, length
tests, big-endian fields, command payloads and response layouts. -/

namespace Sys2Proof

/-- `sum8(S)`: the bytes of `S` added mod 256, `sum8([]) = 0` (00_scope.md section 4). -/
def sum8 : List Byte → Byte
  | [] => 0
  | b :: bs => b + sum8 bs

/-- `neg8(v) = (256 - v) mod 256` (00_scope.md section 4). -/
def neg8 (v : Byte) : Byte := BitVec.ofNat 8 ((256 - v.toNat) % 256)

/-- The checksum generator `chk(S) = neg8(sum8(S))` (41_encoder.md R84). -/
def chk (s : List Byte) : Byte := neg8 (sum8 s)

/-- `be16(h, l) = h * 256 + l` (00_scope.md section 4, 20_memory.md R34). -/
def be16 (h l : Byte) : Half := BitVec.ofNat 16 (h.toNat * 256 + l.toNat)

/-- The more significant byte of a big-endian field (R34). -/
def hiByte (v : Half) : Byte := BitVec.ofNat 8 (v.toNat / 256)

/-- The less significant byte of a big-endian field (R34). -/
def loByte (v : Half) : Byte := BitVec.ofNat 8 (v.toNat % 256)

/-- `zext_8` of a length (00_scope.md section 4). -/
def lengthByte (l : Nat) : Byte := BitVec.ofNat 8 l

/-- `FRAME(h, P) = [h, |P|] ++ P ++ [chk([h, |P|] ++ P)]` (41_encoder.md R86, R41, R44). -/
def frame (h : Byte) (p : List Byte) : List Byte :=
  [h, lengthByte p.length] ++ p ++ [chk ([h, lengthByte p.length] ++ p)]

/-- The decoder accepts a declared length N iff N < RX_CAP, unsigned (R2, R48). -/
def lengthAccepted (P : Params) (n : Byte) : Bool := decide (n.toNat < P.rxCap)

/-- The encoder accepts a payload of L bytes iff L + 3 <= TX_CAP (R3, R82). -/
def encoderAccepts (P : Params) (l : Nat) : Bool := decide (l + 3 ≤ P.txCap)

/-- A byte string of the frame shape with header `h` whose bytes sum to 0 mod 256 (R41, R44). -/
def frameWellFormed (h n : Byte) (p : List Byte) (c : Byte) : Bool :=
  decide (p.length = n.toNat) && decide (sum8 (h :: n :: (p ++ [c])) = 0)

/-- The command code, the first byte of the request payload (R51). -/
def commandCode : Command → Byte
  | .fullMeasurement => 0x02
  | .pm25Only => 0x0B

/-- The command whose code a response payload echoes at offset 0, if any (R52). -/
def echoedCommand : List Byte → Option Command
  | [] => none
  | e :: _ =>
      if e = commandCode .fullMeasurement then some .fullMeasurement
      else if e = commandCode .pm25Only then some .pm25Only
      else none

/-- The request payloads, wire constants (R51). -/
def commandPayload : Command → List Byte
  | .fullMeasurement => [0x02]
  | .pm25Only => [0x0B, 0x01]

/-- The bytes of a full-measurement response payload, offset 0 first (R53). -/
def fullPayloadBytes (r : FullPayload) : List Byte :=
  commandCode .fullMeasurement :: r.u1 :: r.u2 :: hiByte r.pm2_5 :: loByte r.pm2_5 :: r.u5 :: r.u6 ::
    hiByte r.pm1_0 :: loByte r.pm1_0 :: r.u9 :: r.u10 :: hiByte r.pm10 :: loByte r.pm10 :: r.rest

/-- The bytes of a PM2.5-only response payload, offset 0 first (R54). -/
def pm25PayloadBytes (r : Pm25Payload) : List Byte :=
  commandCode .pm25Only :: r.x1 :: r.x2 :: hiByte r.pm2_5 :: loByte r.pm2_5 :: r.rest

end Sys2Proof
end

