-- ==== Sys2Proof/WellFormed.lean ====
section
/-! DEFINITION. Well-formed instructions: the part of each row's condition that speaks of the operands alone.
The part that speaks of the decoder's state is `Instr.inMode` (Decode.lean). -/

namespace Sys2Proof

/-- The operands satisfy their row's condition (spec/opcode_table.json, key `condition`; 30_encoding.md R46). -/
def Instr.wf (P : Params) : Instr → Bool
  | .hdrSync => true
  | .hdrSkip b => decide (b ≠ P.rxHeader)
  | .lenZero => lengthAccepted P 0
  | .lenAccept n => decide (n ≠ 0) && lengthAccepted P n
  | .lenReject n => !lengthAccepted P n
  | .payStore _ => true
  | .payLast _ => true
  | .chkValid _ => true
  | .chkInvalid _ => true
  | .feed _ => true
  | .encodeOk p => encoderAccepts P p.length
  | .encodeOverflow p => !encoderAccepts P p.length
  | .frameResponse n p c => frameWellFormed P.rxHeader n p c
  -- the two command frames have rows of their own (R89)
  | .frameRequest n p c => frameWellFormed P.txHeader n p c &&
      decide (p ≠ commandPayload .fullMeasurement) && decide (p ≠ commandPayload .pm25Only)
  | .cmdFullMeasurement => true
  | .cmdPm25Only => true
  -- a length byte must be able to express the payload's length (R43)
  | .rspFullMeasurement r => decide ((fullPayloadBytes r).length ≤ 255)
  | .rspPm25Only r => decide ((pm25PayloadBytes r).length ≤ 255)
  | .viewEcho => true
  | .viewFullMeasurement => true
  | .viewPm25Only => true

end Sys2Proof
end

