-- ==== Sys2Proof/Decode.lean ====
section
/-! DEFINITION. The decoder (byte classes, frames, response layouts), total and rejecting by name, the encoder, and
the reading of the opcode table's own words. -/

namespace Sys2Proof

/-- The part of a row's condition that speaks of the decoder's state (R46). PAY.STORE is the `else` arm of R61
(`cur + 1 ≠ len`); in every state a run reaches this is `cur + 1 < len` (R19, log entry 8). -/
def Instr.inMode (m : Mode) : Instr → Bool
  | .hdrSync => decide (m.st = .awaitingHeader)
  | .hdrSkip _ => decide (m.st = .awaitingHeader)
  | .lenZero => decide (m.st = .awaitingLength)
  | .lenAccept _ => decide (m.st = .awaitingLength)
  | .lenReject _ => decide (m.st = .awaitingLength)
  | .payStore _ => decide (m.st = .receivingPayload) && decide (m.cur + 1 ≠ m.len)
  | .payLast _ => decide (m.st = .receivingPayload) && decide (m.cur + 1 = m.len)
  | .chkValid c => decide (m.st = .awaitingChecksum) && decide (m.sum + c = 0)
  | .chkInvalid c => decide (m.st = .awaitingChecksum) && decide (m.sum + c ≠ 0)
  | .feed _ => true
  | .encodeOk _ => true
  | .encodeOverflow _ => true
  | .frameResponse _ _ _ => true
  | .frameRequest _ _ _ => true
  | .cmdFullMeasurement => true
  | .cmdPm25Only => true
  | .rspFullMeasurement _ => true
  | .rspPm25Only _ => true
  | .viewEcho => true
  | .viewFullMeasurement => true
  | .viewPm25Only => true

/-- The byte class of a received byte (30_encoding.md R46 to R49, arms in the order of R61). -/
def classify (P : Params) (m : Mode) (b : Byte) : Instr :=
  match m.st with
  | .awaitingHeader => if b = P.rxHeader then .hdrSync else .hdrSkip b
  | .awaitingLength =>
      if lengthAccepted P b then (if b = 0 then .lenZero else .lenAccept b) else .lenReject b
  | .receivingPayload => if m.cur + 1 = m.len then .payLast b else .payStore b
  | .awaitingChecksum => if m.sum + b = 0 then .chkValid b else .chkInvalid b

/-- The request frame with payload `p`: the two command frames are rows of their own (R89). -/
def classifyRequest (n : Byte) (p : List Byte) (c : Byte) : Instr :=
  if p = commandPayload .fullMeasurement then .cmdFullMeasurement
  else if p = commandPayload .pm25Only then .cmdPm25Only
  else .frameRequest n p c

/-- A whole frame, read by the layout of R41: header, length, that many payload bytes, checksum (R45). -/
def decodeFrame (P : Params) : List Byte → Except DecodeError Instr
  | h :: n :: tail =>
      let p := tail.take n.toNat
      match tail.drop n.toNat with
      | [c] =>
          if sum8 (h :: n :: tail) = 0 then
            if h = P.rxHeader then .ok (.frameResponse n p c)
            else if h = P.txHeader then .ok (classifyRequest n p c)
            else .error .badHeader
          else .error .badChecksum
      | _ => .error .wrongLength
  | _ => .error .tooShort

/-- A response payload, read by the layout its echo byte names (R52 to R54). -/
def decodePayload : List Byte → Except DecodeError Instr
  | [] => .error .shortPayload
  | e :: tail =>
      if 255 ≤ tail.length then .error .longPayload
      else if e = commandCode .fullMeasurement then
        match tail with
        | u1 :: u2 :: ah :: al :: u5 :: u6 :: bh :: bl :: u9 :: u10 :: ch :: cl :: rest =>
            .ok (.rspFullMeasurement ⟨u1, u2, be16 ah al, u5, u6, be16 bh bl, u9, u10, be16 ch cl, rest⟩)
        | _ => .error .shortPayload
      else if e = commandCode .pm25Only then
        match tail with
        | x1 :: x2 :: ah :: al :: rest => .ok (.rspPm25Only ⟨x1, x2, be16 ah al, rest⟩)
        | _ => .error .shortPayload
      else .error .unknownEcho

/-- The decoder: total on every call under every mode; only a byte string handed over as a frame or a payload can
be rejected, by name. -/
def decode (P : Params) (m : Mode) : Call → Except DecodeError Instr
  | .rx b => .ok (classify P m b)
  | .feed b => .ok (.feed b)
  | .encode p => .ok (if encoderAccepts P p.length then .encodeOk p else .encodeOverflow p)
  | .frame bs => decodeFrame P bs
  | .payload bs => decodePayload bs
  | .view .echo => .ok .viewEcho
  | .view .fullMeasurement => .ok .viewFullMeasurement
  | .view .pm25Only => .ok .viewPm25Only

/-- The encoder of instructions: the call a well-formed instruction stands for, from the same table. -/
def encode (P : Params) : Instr → Call
  | .hdrSync => .rx P.rxHeader
  | .hdrSkip b => .rx b
  | .lenZero => .rx 0
  | .lenAccept n => .rx n
  | .lenReject n => .rx n
  | .payStore b => .rx b
  | .payLast b => .rx b
  | .chkValid c => .rx c
  | .chkInvalid c => .rx c
  | .feed b => .feed b
  | .encodeOk p => .encode p
  | .encodeOverflow p => .encode p
  | .frameResponse n p c => .frame (P.rxHeader :: n :: (p ++ [c]))
  | .frameRequest n p c => .frame (P.txHeader :: n :: (p ++ [c]))
  | .cmdFullMeasurement => .frame (frame P.txHeader (commandPayload .fullMeasurement))
  | .cmdPm25Only => .frame (frame P.txHeader (commandPayload .pm25Only))
  | .rspFullMeasurement r => .payload (fullPayloadBytes r)
  | .rspPm25Only r => .payload (pm25PayloadBytes r)
  | .viewEcho => .view .echo
  | .viewFullMeasurement => .view .fullMeasurement
  | .viewPm25Only => .view .pm25Only

/-- The `format` column of the row (R58). -/
def Instr.format : Instr → Format
  | .hdrSync => .rxByte
  | .hdrSkip _ => .rxByte
  | .lenZero => .rxByte
  | .lenAccept _ => .rxByte
  | .lenReject _ => .rxByte
  | .payStore _ => .rxByte
  | .payLast _ => .rxByte
  | .chkValid _ => .rxByte
  | .chkInvalid _ => .rxByte
  | .feed _ => .op
  | .encodeOk _ => .op
  | .encodeOverflow _ => .op
  | .frameResponse _ _ _ => .frame
  | .frameRequest _ _ _ => .frame
  | .cmdFullMeasurement => .frame
  | .cmdPm25Only => .frame
  | .rspFullMeasurement _ => .payload
  | .rspPm25Only _ => .payload
  | .viewEcho => .view
  | .viewFullMeasurement => .view
  | .viewPm25Only => .view

/-- The format of a call. -/
def Call.format : Call → Format
  | .rx _ => .rxByte
  | .feed _ => .op
  | .encode _ => .op
  | .frame _ => .frame
  | .payload _ => .payload
  | .view _ => .view

/-- The `k` bytes of a table word. The table writes a multi-byte word with the first wire byte leftmost (its
CMD.FULL_MEASUREMENT is 0x110102EC for the bytes 11 01 02 EC), so the first byte is the most significant (log entry 6). -/
def tableBytes : (k : Nat) → (w : Nat) → List Byte
  | 0, _ => []
  | k + 1, w => BitVec.ofNat 8 (w / 256 ^ k) :: tableBytes k (w % 256 ^ k)

/-- The call a table word stands for: one byte is a received byte (RXBYTE); a longer word is a frame if it starts
with a header (R42), else a response payload (R53, R54). -/
def tableCall (P : Params) (nbits w : Nat) : Call :=
  match tableBytes (nbits / 8) w with
  | [b] => .rx b
  | [] => .frame []
  | h :: tail => if h = P.rxHeader ∨ h = P.txHeader then .frame (h :: tail) else .payload (h :: tail)

/-- The state tag under which the table fixes a one-byte word (log entry 6): its rows with fixed bits are HDR.SYNC
(AwaitingHeader), LEN.ZERO and LEN.ACCEPT (AwaitingLength); every other byte is read as after reset. -/
def tableTag (P : Params) (b : Byte) : Tag :=
  if b ≠ P.rxHeader ∧ lengthAccepted P b then .awaitingLength else .awaitingHeader

/-- The mode in which a table word is read. Only its tag matters: the two tags above do not look at the rest. -/
def tableMode (P : Params) : Call → Mode
  | .rx b => ⟨tableTag P b, P.rxHeader, 0, 0⟩
  | .feed _ => ⟨.awaitingHeader, P.rxHeader, 0, 0⟩
  | .encode _ => ⟨.awaitingHeader, P.rxHeader, 0, 0⟩
  | .frame _ => ⟨.awaitingHeader, P.rxHeader, 0, 0⟩
  | .payload _ => ⟨.awaitingHeader, P.rxHeader, 0, 0⟩
  | .view _ => ⟨.awaitingHeader, P.rxHeader, 0, 0⟩

/-- The instruction the decoder reads from a word of the opcode table (log entry 6). -/
def decodeTableWord (nbits w : Nat) : Option Instr :=
  match decode params (tableMode params (tableCall params nbits w)) (tableCall params nbits w) with
  | .ok i => some i
  | .error _ => none

end Sys2Proof
end

