-- ==== Sys2Proof/Machine/State.lean ====
section
/-! DEFINITION. The state: the decoder's five items, the outputs of the operations, the caller's and the transport's
state, and the list of inputs still to come. Plain data. -/

namespace Sys2Proof.Machine

/-- The payload buffer: the cells written since reset, as (index, byte) pairs with strictly rising indices. A cell
that is not listed has no value of its own (`bufRead` answers none); what it shows is `cell` of Ops.lean (log entry 3). -/
abbrev Memory := List Host.Cell

/-- The canonical form of the buffer: indices strictly rising. Equal contents are equal lists. -/
abbrev Memory.wf (m : Memory) : Prop := List.Pairwise (fun x y => x.1 < y.1) m

/-- The three-valued result of a FEED (10_state.md R21). -/
inductive Result where
  | notComplete
  | valid
  | invalid
  deriving DecidableEq, Repr

/-- The five error conditions (60_exceptions.md R100). None stops the machine. -/
inductive ErrorCond where
  /-- E_CHECKSUM (R101): CHK.INVALID. -/
  | checksum
  /-- E_OVERSIZE (R102): LEN.REJECT. -/
  | oversize
  /-- E_ENC_OVERFLOW (R103): ENCODE with L + 3 > TX_CAP. -/
  | encOverflow
  /-- E_TIMEOUT (R104): the caller found no valid frame. -/
  | timeout
  /-- E_CMD_MISMATCH (R105): a valid frame whose echo is not the command sent. -/
  | cmdMismatch
  deriving DecidableEq, Repr

/-- The outcome of ENCODE: a frame, or the error return EncoderOverflow with no frame at all (R81 to R83, D10). -/
inductive EncResult where
  | frame (f : List Byte)
  | overflow
  deriving DecidableEq, Repr

/-- The three values of a full measurement (42_payload_views.md R93, R97). -/
structure FullMeasurement where
  pm1_0 : Half
  pm2_5 : Half
  pm10 : Half
  deriving DecidableEq, Repr

/-- What a read of the payload output returned to the caller. -/
inductive ViewValue where
  /-- A payload cell (R22, R32). -/
  | cell (b : Byte)
  /-- The echo byte (R92). -/
  | echo (b : Byte)
  | full (m : FullMeasurement)
  | pm25 (pm2_5 : Half)
  deriving DecidableEq, Repr

/-- The outcome of a request at the caller-facing operations (R97). -/
inductive Report where
  | full (m : FullMeasurement)
  | pm25 (pm2_5 : Half)
  | failed (e : ErrorCond)
  deriving DecidableEq, Repr

/-- The Frame Decoder: the five items of 10_state.md R10, and `draw`, the model's own: the number of the last reset,
which names the free values that unwritten cells show (log entries 1 to 3). -/
structure Decoder where
  st : Tag
  sum : Byte
  len : Nat
  cur : Nat
  buf : Memory
  draw : Nat
  deriving DecidableEq, Repr

/-- The transport as the caller sees it (60_exceptions.md R112): bytes received and not yet fed, bytes written. -/
structure Line where
  rx : List Byte
  tx : List Byte
  deriving DecidableEq, Repr

/-- The input ports of the encoder's signal binding (70_reset_and_hazards.md R135): `cmd_len`, 8 bits, and
`cmd_data[i]` for `0 <= i < TX_CAP-3`, 8 bits each. -/
structure EncoderPorts (P : Params) where
  cmdLen : Byte
  cmdData : Vector Byte (P.txCap - 3)
  deriving DecidableEq, Repr

/-- One thing the outside world does to the machine; a step performs one of them. -/
inductive Input where
  /-- The caller issues an instruction. -/
  | call (c : Call)
  /-- One clock cycle of the decoder's signal binding (70_reset_and_hazards.md R134). -/
  | clock (rst rxValid : Bool) (rxByte : Byte)
  /-- The encoder's input ports are driven and its outputs taken (R135, R136). -/
  | encoderPorts (e : EncoderPorts params)
  /-- The caller reads payload cell `i` (R22, R32; R134's `pl_addr`). -/
  | readPayload (i : Nat)
  /-- Bytes arrive on the transport (R112). -/
  | arrive (bs : List Byte)
  /-- The caller performs a whole request (R91, R97) with the bytes that have arrived. -/
  | request (c : Command)
  deriving DecidableEq, Repr

/-- The machine's state. -/
structure State where
  /-- The decoder. -/
  dec : Decoder
  /-- The results returned by the FEEDs of the last FEED or FEEDS call (R21, R56; log entry 4). -/
  results : List Result
  /-- What the last ENCODE returned (log entry 4). -/
  enc : Option EncResult
  /-- What the caller's last payload read returned (log entry 4). -/
  view : Option ViewValue
  /-- The transport's queues (log entry 12). -/
  line : Line
  /-- The outcome of the caller's last concluded request (log entry 12). -/
  report : Option Report
  /-- The inputs still to come, first first (R56; log entry 5). -/
  inputs : List Input
  deriving DecidableEq, Repr

/-- What stops the machine with a fault. -/
inductive Fault where
  /-- Raised by a payload store with `cur >= RX_CAP`, an address outside the buffer (R31). SAFE: no state a run
  reaches raises it (R19, R20). -/
  | writeOutsideBuffer
  deriving DecidableEq, Repr

/-- Why an instruction is refused. -/
inductive Refusal where
  /-- Raised by an arm of `exec` whose instruction has no meaning yet; none has. SAFE. -/
  | notModelled (mnemonic : String)
  /-- Raised by a meaning executed where its row's condition does not hold: the row is not the one that applies there
  (R46: the classes exclude each other). No step does this, since the decoder selects the row. SAFE. -/
  | rowConditionFails
  /-- Raised by a payload read at an index `>= RX_CAP`, which "a model must refuse" (R32). SAFE. -/
  | readOutsideBuffer
  deriving DecidableEq, Repr

/-- The decoder right after reset number `n`: AwaitingHeader, everything else unspecified (R23, R120). -/
def Decoder.afterReset (n : Nat) : Decoder where
  st := .awaitingHeader
  sum := Config.resetSum n
  len := (Config.resetLen n).toNat
  cur := (Config.resetCur n).toNat
  buf := []
  draw := n

/-- The machine right after reset: the decoder as constructed (R120), no operation issued yet. -/
def State.reset : State where
  dec := .afterReset 0
  results := []
  enc := none
  view := none
  line := ⟨[], []⟩
  report := none
  inputs := []

end Sys2Proof.Machine
end

