-- ==== Sys2Proof/Machine/Flags.lean ====
section
/-! DEFINITION. Conditions and result outputs. The engine has no flag register: the one condition it evaluates is
`sum = 0` at a completion, used in that step and not stored (10_state.md R26). -/

namespace Sys2Proof.Machine

/-- The result of a completion, from the accumulator after the trailer is added (40_decoder.md R69, R70). -/
def completionResult (sum : Byte) : Result := if sum = 0 then .valid else .invalid

/-- `frame_valid`: true exactly when the result is VALID (10_state.md R21). -/
def frameValid (r : Result) : Bool := decide (r = .valid)

/-- The encoding of the result (R21, D4). -/
def resultCode : Result → BitVec 2
  | .notComplete => 0b00
  | .valid => 0b01
  | .invalid => 0b10

/-- The encoding of the state tag (R12, D3). -/
def tagCode : Tag → BitVec 2
  | .awaitingHeader => 0b00
  | .awaitingLength => 0b01
  | .receivingPayload => 0b10
  | .awaitingChecksum => 0b11

/-- The result output: the last FEED's result, NOT_COMPLETE while no FEED has been issued (70_reset_and_hazards.md R120). -/
def resultOutput (s : State) : Result := s.results.getLastD .notComplete

/-- The error condition a row is, if any (60_exceptions.md R100 to R103, R107). -/
def rowError : Instr → Option ErrorCond
  | .hdrSync => none
  | .hdrSkip _ => none
  | .lenZero => none
  | .lenAccept _ => none
  | .lenReject _ => some .oversize
  | .payStore _ => none
  | .payLast _ => none
  | .chkValid _ => none
  | .chkInvalid _ => some .checksum
  | .feed _ => none
  | .encodeOk _ => none
  | .encodeOverflow _ => some .encOverflow
  | .frameResponse _ _ _ => none
  | .frameRequest _ _ _ => none
  | .cmdFullMeasurement => none
  | .cmdPm25Only => none
  | .rspFullMeasurement _ => none
  | .rspPm25Only _ => none
  | .viewEcho => none
  | .viewFullMeasurement => none
  | .viewPm25Only => none

end Sys2Proof.Machine
end

