-- ==== Sys2Proof/Machine/Ops.lean ====
section
/-! DEFINITION. The shared operations: the payload buffer, FEED and FEEDS, the encoder, the reset.
The engine has no exception entry and no return from one (60_exceptions.md R106, R108, R109): an error saves nothing
and transfers control nowhere, so the operations below hold no such pair. -/

namespace Sys2Proof.Machine

/-- The outcome type of every meaning. -/
abbrev Out := Host.Outcome State Fault Refusal

/-- The byte a buffer cell was last written with; none if nothing has written it since reset. -/
def bufRead : Memory → Nat → Option Byte
  | [], _ => none
  | (k, v) :: m, a => if k = a then some v else bufRead m a

/-- Write one cell, keeping the indices strictly rising. -/
def bufWrite : Memory → Nat → Byte → Memory
  | [], a, b => [(a, b)]
  | (k, v) :: m, a, b =>
      if a < k then (a, b) :: (k, v) :: m
      else if a = k then (a, b) :: m
      else (k, v) :: bufWrite m a b

/-- The value of `buf[i]`: what was last written, or the reset's unspecified value (20_memory.md R38, R23; log entry 3). -/
def cell (d : Decoder) (i : Nat) : Byte := (bufRead d.buf i).getD (Config.resetCell d.draw i)

/-- `[buf[0], ..., buf[n-1]]`. -/
def cells (d : Decoder) (n : Nat) : List Byte := (List.range n).map (cell d)

/-- `MemRead(i, 1)`: refused outside the buffer (R32). -/
def memRead (P : Params) (d : Decoder) (i : Nat) : Except Refusal Byte :=
  if i < P.rxCap then .ok (cell d i) else .error .readOutsideBuffer

/-- `MemWrite(i, 1, v)`: the bounds check of R31; only a state no run reaches fails it (log entry 8). -/
def memWrite (P : Params) (d : Decoder) (i : Nat) (v : Byte) : Except Fault Decoder :=
  if i < P.rxCap then .ok { d with buf := bufWrite d.buf i v } else .error .writeOutsideBuffer

/-- What selects the class of the next byte (30_encoding.md R46). -/
abbrev Decoder.mode (d : Decoder) : Mode := ⟨d.st, d.sum, d.len, d.cur⟩

/-- FEED of the reference semantics, transcribed statement by statement (40_decoder.md R61). -/
def feed (P : Params) (d : Decoder) (b : Byte) : Except Fault (Decoder × Result) :=
  match d.st with
  | .awaitingHeader =>
      if b = P.rxHeader then .ok ({ d with sum := b, st := .awaitingLength }, .notComplete)
      else .ok (d, .notComplete)
  | .awaitingLength =>
      let d1 := { d with sum := d.sum + b }
      if lengthAccepted P b then
        let d2 := { d1 with len := b.toNat, cur := 0 }
        if b = 0 then .ok ({ d2 with st := .awaitingChecksum }, .notComplete)
        else .ok ({ d2 with st := .receivingPayload }, .notComplete)
      else .ok ({ d1 with st := .awaitingHeader }, .notComplete)
  | .receivingPayload =>
      let d1 := { d with sum := d.sum + b }
      match memWrite P d1 d1.cur b with
      | .error f => .error f
      | .ok d2 =>
          let d3 := { d2 with cur := d2.cur + 1 }
          if d3.cur = d3.len then .ok ({ d3 with st := .awaitingChecksum }, .notComplete)
          else .ok (d3, .notComplete)
  | .awaitingChecksum =>
      let d1 := { d with sum := d.sum + b }
      .ok ({ d1 with st := .awaitingHeader }, completionResult d1.sum)

/-- FEEDS: one FEED per byte, in order, collecting the results (30_encoding.md R56; 20_memory.md R38). -/
def feeds (P : Params) : Decoder → List Byte → Except Fault (Decoder × List Result)
  | d, [] => .ok (d, [])
  | d, b :: bs =>
      match feed P d b with
      | .error f => .error f
      | .ok (d1, r) =>
          match feeds P d1 bs with
          | .error f => .error f
          | .ok (d2, rs) => .ok (d2, r :: rs)

/-- The state after a FEED that gave decoder `d` and result `r`. -/
def State.fed (s : State) (d : Decoder) (r : Result) : State := { s with dec := d, results := [r] }

/-- The outcome of a FEED. -/
def fedOutcome (s : State) : Except Fault (Decoder × Result) → Out
  | .ok (d, r) => .next (s.fed d r)
  | .error f => .fault f

/-- The outcome of a FEEDS. -/
def fedsOutcome (s : State) : Except Fault (Decoder × List Result) → Out
  | .ok (d, rs) => .next { s with dec := d, results := rs }
  | .error f => .fault f

/-- The caller feeds a byte string, first byte first (R56). DESIGN CHOICE (log entry 20): at once, past bytes that
arrived earlier and still wait in `line.rx`. -/
def feedBytes (bs : List Byte) (s : State) : Out := fedsOutcome s (feeds params s.dec bs)

/-- ENCODE (41_encoder.md R81 to R83): the overflow test comes before all output (R107). -/
def encoder (P : Params) (p : List Byte) : EncResult :=
  if encoderAccepts P p.length then .frame (frame P.txHeader p) else .overflow

/-- The caller asks the encoder for a request frame and writes it to the transport (42_payload_views.md R90);
on EncoderOverflow there is nothing to write (D10). -/
def transmit (P : Params) (s : State) (p : List Byte) : State :=
  match encoder P p with
  | .frame f => { s with enc := some (.frame f), line := { s.line with tx := s.line.tx ++ f } }
  | .overflow => { s with enc := some .overflow }

/-- A meaning's effect, where its row's condition holds of the operands and of the decoder's state (R46); elsewhere
the row does not apply (log entry 7). -/
def onRow (i : Instr) (s : State) (effect : Out) : Out :=
  if i.wf params && i.inMode s.dec.mode then effect else .refused .rowConditionFails

/-- Hardware reset: the decoder as constructed, with a new draw of everything unspecified (R120, R134, D7). -/
def hardReset (s : State) : State :=
  { s with dec := .afterReset (s.dec.draw + 1), results := [] }

end Sys2Proof.Machine
end

