-- ==== Sys2Proof/Machine/ByteClasses.lean ====
section
/-! DEFINITION. FEED and its nine byte classes (40_decoder.md R61 to R70), one definition per row, each transcribed
from its own rule; that FEED and the class its byte selects agree is a statement, not a definition. -/

namespace Sys2Proof.Machine

/-- HDR.SYNC (R62): the accumulator is SET to the header byte. -/
def execHdrSync (s : State) : Out :=
  onRow .hdrSync s (.next (s.fed { s.dec with sum := params.rxHeader, st := .awaitingLength } .notComplete))

/-- HDR.SKIP (R63): no register or buffer is written. -/
def execHdrSkip (b : Byte) (s : State) : Out :=
  onRow (.hdrSkip b) s (.next (s.fed s.dec .notComplete))

/-- LEN.ZERO (R65). -/
def execLenZero (s : State) : Out :=
  onRow .lenZero s
    (.next (s.fed { s.dec with sum := s.dec.sum + 0, len := 0, cur := 0, st := .awaitingChecksum } .notComplete))

/-- LEN.ACCEPT (R64). -/
def execLenAccept (n : Byte) (s : State) : Out :=
  onRow (.lenAccept n) s
    (.next (s.fed { s.dec with sum := s.dec.sum + n, len := n.toNat, cur := 0, st := .receivingPayload } .notComplete))

/-- LEN.REJECT (R66): `sum` is updated too (D20, log entry 14). -/
def execLenReject (n : Byte) (s : State) : Out :=
  onRow (.lenReject n) s (.next (s.fed { s.dec with sum := s.dec.sum + n, st := .awaitingHeader } .notComplete))

/-- The payload store shared by PAY.STORE and PAY.LAST: `buf[cur] <- b` with the old `cur`, then `cur + 1` (R67, R68). -/
def payloadStored (s : State) (b : Byte) (st : Tag) : Out :=
  match memWrite params s.dec s.dec.cur b with
  | .ok d => .next (s.fed { d with sum := d.sum + b, cur := d.cur + 1, st := st } .notComplete)
  | .error f => .fault f

/-- PAY.STORE (R67). -/
def execPayStore (b : Byte) (s : State) : Out :=
  onRow (.payStore b) s (payloadStored s b .receivingPayload)

/-- PAY.LAST (R68). -/
def execPayLast (b : Byte) (s : State) : Out :=
  onRow (.payLast b) s (payloadStored s b .awaitingChecksum)

/-- CHK.VALID (R69): `len`, `cur`, `buf` keep the frame. -/
def execChkValid (c : Byte) (s : State) : Out :=
  onRow (.chkValid c) s (.next (s.fed { s.dec with sum := s.dec.sum + c, st := .awaitingHeader } .valid))

/-- CHK.INVALID (R70). -/
def execChkInvalid (c : Byte) (s : State) : Out :=
  onRow (.chkInvalid c) s (.next (s.fed { s.dec with sum := s.dec.sum + c, st := .awaitingHeader } .invalid))

/-- FEED (R61), of the byte it is given; bytes waiting in `line.rx` stay there (DESIGN CHOICE, log entry 20). -/
def execFeed (b : Byte) (s : State) : Out := fedOutcome s (feed params s.dec b)

end Sys2Proof.Machine
end

