-- ==== Sys2Proof/Machine/Encoder.lean ====
section
/-! DEFINITION. ENCODE (41_encoder.md R81 to R83) and the outbound frames. -/

namespace Sys2Proof.Machine

/-- ENCODE.OK (R83): the operation returns the frame. -/
def execEncodeOk (p : List Byte) (s : State) : Out :=
  onRow (.encodeOk p) s (.next { s with enc := some (encoder params p) })

/-- ENCODE.OVERFLOW (R82): the operation returns the error EncoderOverflow and nothing else; the machine goes on (R100). -/
def execEncodeOverflow (p : List Byte) (s : State) : Out :=
  onRow (.encodeOverflow p) s (.next { s with enc := some (encoder params p) })

/-- FRAME.REQUEST (R42): the encoder produces the frame, if it can, and the caller writes it out (log entry 9). -/
def execFrameRequest (n : Byte) (p : List Byte) (c : Byte) (s : State) : Out :=
  onRow (.frameRequest n p c) s (.next (transmit params s p))

/-- CMD.FULL_MEASUREMENT (R89): the frame the encoder makes of `[02]` (log entry 9). -/
def execCmdFullMeasurement (s : State) : Out := .next (transmit params s (commandPayload .fullMeasurement))

/-- CMD.PM25_ONLY (R89): the frame the encoder makes of `[0B, 01]` (log entry 9). -/
def execCmdPm25Only (s : State) : Out := .next (transmit params s (commandPayload .pm25Only))

end Sys2Proof.Machine
end

