-- ==== Sys2Proof/Machine/Views.lean ====
section
/-! DEFINITION. The caller's reads of the payload output: the views of 42_payload_views.md R92 to R94. They test no
length (R96, D12; log entry 16) and change nothing but what the caller holds. -/

namespace Sys2Proof.Machine

/-- A big-endian 16-bit field at payload offset `o` (20_memory.md R34). -/
def fieldRead (P : Params) (d : Decoder) (o : Nat) : Except Refusal Half :=
  match memRead P d o, memRead P d (o + 1) with
  | .ok h, .ok l => .ok (be16 h l)
  | .error e, _ => .error e
  | _, .error e => .error e

/-- `echo = MemRead(0, 1)` (R92). -/
def echoRead (P : Params) (d : Decoder) : Except Refusal Byte := memRead P d 0

/-- PM2.5 at [3:5), PM1.0 at [7:9), PM10 at [11:13) (R93). -/
def fullRead (P : Params) (d : Decoder) : Except Refusal FullMeasurement :=
  match fieldRead P d 3, fieldRead P d 7, fieldRead P d 11 with
  | .ok a, .ok b, .ok c => .ok { pm2_5 := a, pm1_0 := b, pm10 := c }
  | .error e, _, _ => .error e
  | _, .error e, _ => .error e
  | _, _, .error e => .error e

/-- PM2.5 at [3:5) (R94). -/
def pm25Read (P : Params) (d : Decoder) : Except Refusal Half := fieldRead P d 3

/-- The caller holds the value it read. -/
def viewed (s : State) : Except Refusal ViewValue → Out
  | .ok v => .next { s with view := some v }
  | .error e => .refused e

/-- VIEW.ECHO (R92). -/
def execViewEcho (s : State) : Out := viewed s ((echoRead params s.dec).map .echo)

/-- VIEW.FULL_MEASUREMENT (R93). -/
def execViewFullMeasurement (s : State) : Out := viewed s ((fullRead params s.dec).map .full)

/-- VIEW.PM25_ONLY (R94). -/
def execViewPm25Only (s : State) : Out := viewed s ((pm25Read params s.dec).map .pm25)

/-- The caller reads payload cell `i` (10_state.md R22); an index `>= RX_CAP` is refused (R32). -/
def readPayload (i : Nat) (s : State) : Out := viewed s ((memRead params s.dec i).map .cell)

end Sys2Proof.Machine
end

