-- ==== Sys2Proof/Machine/Orchestration.lean ====
section
/-! DEFINITION. The caller's contract (42_payload_views.md R90, R91, R97): wait for a valid frame, check the echo,
extract the fields. Log entries 9 and 12. -/

namespace Sys2Proof.Machine

/-- What feeding received bytes until the first VALID result came to. -/
structure Await where
  dec : Decoder
  results : List Result
  /-- The bytes not fed: those after the one that completed a valid frame. -/
  unfed : List Byte
  gotFrame : Bool
  deriving DecidableEq, Repr

/-- Step (c) of R91: feed each received byte until the first VALID result; INVALID and NOT_COMPLETE both continue. -/
def awaitValid (P : Params) : Decoder → List Byte → Except Fault Await
  | d, [] => .ok ⟨d, [], [], false⟩
  | d, b :: bs =>
      match feed P d b with
      | .error f => .error f
      | .ok (d1, r) =>
          if r = .valid then .ok ⟨d1, [r], bs, true⟩
          else
            match awaitValid P d1 bs with
            | .error f => .error f
            | .ok a => .ok { a with results := r :: a.results }

/-- Steps (d) and (e) of R91: the echo check (R92), then the fields of the requested shape. A mismatch decides the
request (R91, R105). -/
def conclude (P : Params) (c : Command) (d : Decoder) : Except Refusal Report :=
  match echoRead P d with
  | .error e => .error e
  | .ok e =>
      if e ≠ commandCode c then .ok (.failed .cmdMismatch)
      else
        match c with
        | .fullMeasurement => (fullRead P d).map .full
        | .pm25Only => (pm25Read P d).map .pm25

/-- Wait for the answer to command `c` with the bytes received so far. With no valid frame among them `ifNone` is
what the caller reports: nothing while it goes on waiting, E_TIMEOUT when its budget is spent (R104). -/
def awaitResponse (P : Params) (c : Command) (ifNone : Option Report) (s : State) : Out :=
  match awaitValid P s.dec s.line.rx with
  | .error f => .fault f
  | .ok a =>
      let t := { s with dec := a.dec, results := a.results, line := { s.line with rx := a.unfed } }
      if a.gotFrame then
        match conclude P c a.dec with
        | .ok r => .next { t with report := some r }
        | .error e => .refused e
      else .next { t with report := ifNone }

/-- Bytes arrive on the transport (60_exceptions.md R112). -/
def arrive (s : State) (bs : List Byte) : State :=
  { s with line := { s.line with rx := s.line.rx ++ bs } }

/-- A whole request (R91, R97): encode and send, then wait; no valid frame among the bytes received before the
budget is spent is E_TIMEOUT, and an encoder refusal ends the request with nothing sent (R103). -/
def request (P : Params) (c : Command) (s : State) : Out :=
  match encoder P (commandPayload c) with
  | .overflow => .next { transmit P s (commandPayload c) with report := some (.failed .encOverflow) }
  | .frame _ => awaitResponse P c (some (.failed .timeout)) (transmit P s (commandPayload c))

end Sys2Proof.Machine
end

