-- ==== Sys2Proof/Machine/Frames.lean ====
section
/-! DEFINITION. Inbound frames and response payloads: what executing one of these rows does, and what a byte string
that is the word of no row does (log entry 9). -/

namespace Sys2Proof.Machine

/-- A response with payload `bs` arrives at a caller that waits for the answer to command `c`: the caller feeds the
received bytes up to the first VALID result, checks the echo and extracts the fields (R91). The response queues behind
the bytes that wait in `line.rx` (DESIGN CHOICE, log entry 20). -/
def receiveResponse (c : Command) (bs : List Byte) (s : State) : Out :=
  awaitResponse params c s.report (arrive s (frame params.rxHeader bs))

/-- FRAME.RESPONSE (R41): the caller feeds the frame's bytes in wire order (20_memory.md R33, R38). -/
def execFrameResponse (n : Byte) (p : List Byte) (c : Byte) (s : State) : Out :=
  onRow (.frameResponse n p c) s (feedBytes (params.rxHeader :: n :: (p ++ [c])) s)

/-- RSP.FULL_MEASUREMENT (R53): the answer to the full-measurement request. -/
def execRspFullMeasurement (r : FullPayload) (s : State) : Out :=
  onRow (.rspFullMeasurement r) s (receiveResponse .fullMeasurement (fullPayloadBytes r) s)

/-- RSP.PM25_ONLY (R54): the answer to the PM2.5-only request. -/
def execRspPm25Only (r : Pm25Payload) (s : State) : Out :=
  onRow (.rspPm25Only r) s (receiveResponse .pm25Only (pm25PayloadBytes r) s)

/-- A payload that no response layout fits. Its frame is received like any other: the framing layer carries every
payload (30_encoding.md R50, R55). If it echoes a command, its caller concludes with it, since no view tests the length
(42_payload_views.md R96); if it echoes none, no view is defined and nothing is interpreted (U11). No frame carries more
than 255 bytes (R43); such a string is fed as it stands (00_scope.md R8). -/
def receivePayload (bs : List Byte) (s : State) : Out :=
  if 255 < bs.length then feedBytes bs s
  else
    match echoedCommand bs with
    | some c => receiveResponse c bs s
    | none => feedBytes (frame params.rxHeader bs) s

/-- A call that is the word of no row: a byte string has the effect its bytes have on the decoder, for which every byte
sequence is a possible input (R8, 40_decoder.md R60). Only frames and payloads fail to decode. -/
def receiveUndecoded (c : Call) (s : State) : Out :=
  match c with
  | .rx b => feedBytes [b] s
  | .feed b => feedBytes [b] s
  | .encode _ => feedBytes [] s
  | .frame bs => feedBytes bs s
  | .payload bs => receivePayload bs s
  | .view _ => feedBytes [] s

end Sys2Proof.Machine
end

