-- ==== Sys2Proof/Machine/Dispatch.lean ====
section
/-! DEFINITION. One arm per instruction. -/

namespace Sys2Proof.Machine

def exec (i : Instr) (s : State) : Host.Outcome State Fault Refusal :=
  match i with
  | .hdrSync => Sys2Proof.Machine.execHdrSync s
  | .hdrSkip b => Sys2Proof.Machine.execHdrSkip b s
  | .lenZero => Sys2Proof.Machine.execLenZero s
  | .lenAccept n => Sys2Proof.Machine.execLenAccept n s
  | .lenReject n => Sys2Proof.Machine.execLenReject n s
  | .payStore b => Sys2Proof.Machine.execPayStore b s
  | .payLast b => Sys2Proof.Machine.execPayLast b s
  | .chkValid c => Sys2Proof.Machine.execChkValid c s
  | .chkInvalid c => Sys2Proof.Machine.execChkInvalid c s
  | .feed b => Sys2Proof.Machine.execFeed b s
  | .encodeOk p => Sys2Proof.Machine.execEncodeOk p s
  | .encodeOverflow p => Sys2Proof.Machine.execEncodeOverflow p s
  | .frameResponse n p c => Sys2Proof.Machine.execFrameResponse n p c s
  | .frameRequest n p c => Sys2Proof.Machine.execFrameRequest n p c s
  | .cmdFullMeasurement => Sys2Proof.Machine.execCmdFullMeasurement s
  | .cmdPm25Only => Sys2Proof.Machine.execCmdPm25Only s
  | .rspFullMeasurement r => Sys2Proof.Machine.execRspFullMeasurement r s
  | .rspPm25Only r => Sys2Proof.Machine.execRspPm25Only r s
  | .viewEcho => Sys2Proof.Machine.execViewEcho s
  | .viewFullMeasurement => Sys2Proof.Machine.execViewFullMeasurement s
  | .viewPm25Only => Sys2Proof.Machine.execViewPm25Only s

end Sys2Proof.Machine
end

