-- ==== Sys2Proof/Machine/Ports.lean ====
section
/-! DEFINITION. The output ports of the two blocks, computed from the state or the operand (10_state.md R22,
70_reset_and_hazards.md R134, R135). -/

namespace Sys2Proof.Machine

/-- `pl_len = len` (R22). -/
def plLen (s : State) : Byte := lengthByte s.dec.len

/-- `pl_data(i) = buf[i]`, for `i < RX_CAP` only (R22, R32). -/
def plData (P : Params) (s : State) (i : Nat) : Except Refusal Byte := memRead P s.dec i

/-- The decoded payload `[buf[0], ..., buf[len-1]]` (R22). DESIGN CHOICE (log entry 18): between a reset and the first
accepted length `len` is unspecified and may exceed RX_CAP, and the string then names indices no cell has (R30); the
model shows a free value there, while a read of such an index through `plData` is refused (R32). -/
def decodedPayload (d : Decoder) : List Byte := cells d d.len

/-- `remaining = len - cur` (10_state.md R18). -/
def remaining (d : Decoder) : Nat := d.len - d.cur

section
variable {P : Params}

/-- `enc_ok`: 1 iff L + 3 <= TX_CAP, of the port `cmd_len` alone (R135). -/
def encOk (e : EncoderPorts P) : Bool := encoderAccepts P e.cmdLen.toNat

/-- The operand P on the ports: `P[i] = cmd_data[i]` for `i < L`; entries at `i >= L` are ignored (R135). -/
def portPayload (e : EncoderPorts P) : List Byte := e.cmdData.toList.take e.cmdLen.toNat

/-- What the combinational encoder makes of its input ports: ENCODE of P, or the refusal (R135, R82, R83). -/
def encodePorts (e : EncoderPorts P) : EncResult := if encOk e then encoder P (portPayload e) else .overflow

/-- `frame_len`: L + 3, or 0 when refused (R135). DESIGN CHOICE (log entry 19): the number itself, though the port is
given 8 bits, which a TX_CAP above 255 outgrows. -/
def frameLen (e : EncoderPorts P) : Nat := if encOk e then e.cmdLen.toNat + 3 else 0

/-- `frame[j]` (R135). DESIGN CHOICE (log entry 19): none where the port is unspecified, for `j >= frame_len`. -/
def frameAt (e : EncoderPorts P) (j : Nat) : Option Byte :=
  match encodePorts e with
  | .frame f => f[j]?
  | .overflow => none

end

end Sys2Proof.Machine
end

