-- ==== Sys2Proof/Machine/Issue.lean ====
section
/-! DEFINITION. Performing one input, and placing one. -/

namespace Sys2Proof.Machine

/-- An instruction is decoded under the decoder's mode and executed; a byte string that is the word of no row is
received as it stands (log entry 9). -/
def issueCall (c : Call) (s : State) : Out :=
  match decode params s.dec.mode c with
  | .ok i => exec i s
  | .error _ => receiveUndecoded c s

/-- One clock cycle of R134: reset wins; `rx_valid` performs FEED; otherwise no register changes, and the result
output shows NOT_COMPLETE (log entry 13). Its byte does not pass through `line.rx` (DESIGN CHOICE, log entry 20). -/
def clockCycle (rst rxValid : Bool) (rxByte : Byte) (s : State) : Out :=
  if rst then .next (hardReset s)
  else if rxValid then issueCall (.rx rxByte) s
  else .next { s with results := [] }

/-- Perform one input. -/
def issue (i : Input) (s : State) : Out :=
  match i with
  | .call c => issueCall c s
  | .clock rst rxValid rxByte => clockCycle rst rxValid rxByte s
  | .encoderPorts e => .next { s with enc := some (encodePorts e) }
  | .readPayload k => readPayload k s
  | .arrive bs => .next (arrive s bs)
  | .request c => request params c s

/-- One step: the next input, or nothing at all when there is none (70_reset_and_hazards.md R132, D14). -/
def stepInputs (s : State) : Out :=
  match s.inputs with
  | [] => .next s
  | i :: rest => issue i { s with inputs := rest }

/-- Put a table word first among the inputs, under the state tag its row is read in (log entry 6). -/
def placeTableWord (s : State) (nbits w : Nat) : State :=
  let c := tableCall params nbits w
  match c with
  | .rx b => { s with inputs := .call c :: s.inputs, dec := { s.dec with st := tableTag params b } }
  | _ => { s with inputs := .call c :: s.inputs }

end Sys2Proof.Machine
end

