-- ==== Sys2Proof/Safety.lean ====
section
/-! DEFINITION. What claims call a sound decoder and a safe run. -/

namespace Sys2Proof.Machine

/-- The invariants of 10_state.md R19 and R20 and the registers' width (D5), for parameters `P`. -/
structure Decoder.Inv (P : Params) (d : Decoder) : Prop where
  /-- `len` fits its 8-bit register (D5). -/
  lenWidth : d.len < 256
  /-- `cur` fits its 8-bit register (D5). -/
  curWidth : d.cur < 256
  /-- R19: in ReceivingPayload, `cur < len < RX_CAP`. -/
  receiving : d.st = .receivingPayload → d.cur < d.len ∧ d.len < P.rxCap
  /-- R19: in AwaitingChecksum, `cur = len < RX_CAP`. -/
  checksum : d.st = .awaitingChecksum → d.cur = d.len ∧ d.len < P.rxCap
  /-- R19: in AwaitingLength, `sum = RX_HEADER`. -/
  lengthSum : d.st = .awaitingLength → d.sum = P.rxHeader
  /-- R19: the accumulator includes header, length and every payload byte processed so far. -/
  payloadSum : d.st = .receivingPayload ∨ d.st = .awaitingChecksum →
    d.sum = sum8 ([P.rxHeader, lengthByte d.len] ++ cells d d.cur)
  /-- The buffer is in canonical form. -/
  bufWf : d.buf.wf
  /-- R20: no cell at RX_CAP-1 or above has been written. -/
  bufBound : ∀ a, P.rxCap ≤ a + 1 → bufRead d.buf a = none

/-- The machine's invariant: the decoder's, at this hardware's parameters. -/
def State.Inv (s : State) : Prop := s.dec.Inv params

end Sys2Proof.Machine
end

