-- ==== Sys2Proof/Certificates/Slice0/Obligations.lean ====
section
/-! DEFINITION. The statements for the provers. Each docstring names the rule of spec/ it formalises, or says that it
rests on a choice of the model. Titles and texts stand in OBLIGATIONS.json. -/

open Sys2Proof Sys2Proof.Machine

/-! ### The byte classes: result, completion and frame in one equation (everything not named is unchanged) -/

/-- R62. -/
def Obligations.HdrSyncStartsTheAccumulator : Prop :=
  ∀ s : State, s.dec.st = .awaitingHeader →
    exec .hdrSync s =
      .next { s with dec := { s.dec with sum := 0x16, st := .awaitingLength }, results := [.notComplete] }

/-- R63. -/
def Obligations.HdrSkipWritesNothing : Prop :=
  ∀ (s : State) (b : Byte), s.dec.st = .awaitingHeader → b ≠ 0x16 →
    exec (.hdrSkip b) s = .next { s with results := [.notComplete] }

/-- R64. -/
def Obligations.LenAcceptOpensThePayload : Prop :=
  ∀ (s : State) (n : Byte), s.dec.st = .awaitingLength → 1 ≤ n.toNat → n.toNat < 16 →
    exec (.lenAccept n) s =
      .next { s with
        dec := { s.dec with sum := s.dec.sum + n, len := n.toNat, cur := 0, st := .receivingPayload }
        results := [.notComplete] }

/-- R65, with its corner case: after it, with `sum = 0x16`, only 0xEA completes the frame validly. -/
def Obligations.LenZeroSkipsThePayload : Prop :=
  ∀ s : State, s.dec.st = .awaitingLength →
    ∃ t : State,
      exec .lenZero s = .next t ∧
      t = { s with dec := { s.dec with len := 0, cur := 0, st := .awaitingChecksum }, results := [.notComplete] } ∧
      (s.dec.sum = 0x16 →
        ∀ c : Byte, (∃ u, exec (.feed c) t = .next u ∧ u.results = [.valid]) ↔ c = 0xEA)

/-- R66. -/
def Obligations.LenRejectAborts : Prop :=
  ∀ (s : State) (n : Byte), s.dec.st = .awaitingLength → 16 ≤ n.toNat →
    exec (.lenReject n) s =
      .next { s with dec := { s.dec with sum := s.dec.sum + n, st := .awaitingHeader }, results := [.notComplete] }

/-- R67. The bound on `len` is R15's range. -/
def Obligations.PayStoreStoresAtTheCursor : Prop :=
  ∀ (s : State) (b : Byte), s.dec.st = .receivingPayload → s.dec.cur + 1 < s.dec.len → s.dec.len < 16 →
    exec (.payStore b) s =
      .next { s with
        dec := { s.dec with sum := s.dec.sum + b, buf := bufWrite s.dec.buf s.dec.cur b, cur := s.dec.cur + 1 }
        results := [.notComplete] }

/-- R68. The bound on `len` is R15's range. -/
def Obligations.PayLastClosesThePayload : Prop :=
  ∀ (s : State) (b : Byte), s.dec.st = .receivingPayload → s.dec.cur + 1 = s.dec.len → s.dec.len < 16 →
    ∃ t : State,
      exec (.payLast b) s = .next t ∧
      t = { s with
        dec := { s.dec with
          sum := s.dec.sum + b, buf := bufWrite s.dec.buf s.dec.cur b, cur := s.dec.cur + 1, st := .awaitingChecksum }
        results := [.notComplete] } ∧
      t.dec.cur = t.dec.len

/-- R69. -/
def Obligations.ChkValidCompletesTheFrame : Prop :=
  ∀ (s : State) (c : Byte), s.dec.st = .awaitingChecksum → s.dec.sum + c = 0 →
    exec (.chkValid c) s =
      .next { s with dec := { s.dec with sum := 0, st := .awaitingHeader }, results := [.valid] }

/-- R70. -/
def Obligations.ChkInvalidDiscardsTheFrame : Prop :=
  ∀ (s : State) (c : Byte), s.dec.st = .awaitingChecksum → s.dec.sum + c ≠ 0 →
    exec (.chkInvalid c) s =
      .next { s with dec := { s.dec with sum := s.dec.sum + c, st := .awaitingHeader }, results := [.invalid] }

/-! ### FEED -/

/-- R61 and R46: FEED is the class its byte selects, in every state. -/
def Obligations.FeedIsTheClassItsByteSelects : Prop :=
  ∀ (s : State) (b : Byte), exec (.feed b) s = exec (classify params s.dec.mode b) s

/-- R60: from a sound state FEED completes for every byte, touching the decoder and the result only. -/
def Obligations.FeedCompletesForEveryByte : Prop :=
  ∀ (s : State) (b : Byte), s.Inv →
    ∃ (d : Decoder) (r : Result), exec (.feed b) s = .next { s with dec := d, results := [r] } ∧
      feed params s.dec b = .ok (d, r)

/-- R46: every (state, byte) pair falls in exactly one byte class. -/
def Obligations.ExactlyOneClassApplies : Prop :=
  ∀ (m : Mode) (b : Byte),
    ∃! i : Instr, i.format = .rxByte ∧ encode params i = .rx b ∧ i.wf params = true ∧ i.inMode m = true

/-- R14, R15, R16, R17: what one FEED does to each register and to every buffer cell. -/
def Obligations.FeedUpdatesEachRegister : Prop :=
  ∀ (s t : State) (b : Byte), exec (.feed b) s = .next t →
    t.dec.sum = (match s.dec.st with
      | .awaitingHeader => if b = 0x16 then 0x16 else s.dec.sum
      | _ => s.dec.sum + b) ∧
    t.dec.len = (if s.dec.st = .awaitingLength ∧ b.toNat < 16 then b.toNat else s.dec.len) ∧
    t.dec.cur = (if s.dec.st = .awaitingLength ∧ b.toNat < 16 then 0
      else if s.dec.st = .receivingPayload then s.dec.cur + 1 else s.dec.cur) ∧
    t.dec.draw = s.dec.draw ∧
    ∀ a, bufRead t.dec.buf a =
      if s.dec.st = .receivingPayload ∧ a = s.dec.cur then some b else bufRead s.dec.buf a

/-- R72, first sentence: a completion result comes only from a step taken in AwaitingChecksum, and from each. -/
def Obligations.OnlyChecksumStepsComplete : Prop :=
  ∀ (s t : State) (b : Byte), exec (.feed b) s = .next t →
    (s.dec.st ≠ .awaitingChecksum → t.results = [.notComplete]) ∧
    (s.dec.st = .awaitingChecksum → t.results = [.valid] ∨ t.results = [.invalid])

/-- R71: AwaitingHeader is entered only by a completion or an abort. -/
def Obligations.OnlyCompletionOrAbortReturnsToHeader : Prop :=
  ∀ (s t : State) (b : Byte), exec (.feed b) s = .next t → s.dec.st ≠ .awaitingHeader →
    (t.dec.st = .awaitingHeader ↔
      s.dec.st = .awaitingChecksum ∨ (s.dec.st = .awaitingLength ∧ 16 ≤ b.toNat))

/-- R67, R68: PAY.STORE and PAY.LAST store their byte at the old cursor and touch no other cell. -/
def Obligations.PayloadStoreTouchesOneCell : Prop :=
  ∀ (s t : State) (b : Byte), exec (.payStore b) s = .next t ∨ exec (.payLast b) s = .next t →
    bufRead t.dec.buf s.dec.cur = some b ∧
    ∀ a, a ≠ s.dec.cur → bufRead t.dec.buf a = bufRead s.dec.buf a

/-! ### Whole-machine rules -/

/-- R62 to R66, R69, R70, R81, R92 to R94: the rows that store nothing leave every cell, and the rows that are no
received bytes leave the whole decoder. -/
def Obligations.OnlyPayloadBytesWriteTheBuffer : Prop :=
  ∀ (i : Instr) (s t : State), exec i s = .next t →
    ((i = .hdrSync ∨ (∃ b, i = .hdrSkip b) ∨ i = .lenZero ∨ (∃ n, i = .lenAccept n) ∨ (∃ n, i = .lenReject n) ∨
        (∃ c, i = .chkValid c) ∨ (∃ c, i = .chkInvalid c)) →
      ∀ a, bufRead t.dec.buf a = bufRead s.dec.buf a) ∧
    (((∃ p, i = .encodeOk p) ∨ (∃ p, i = .encodeOverflow p) ∨ (∃ n p c, i = .frameRequest n p c) ∨
        i = .cmdFullMeasurement ∨ i = .cmdPm25Only ∨ i = .viewEcho ∨ i = .viewFullMeasurement ∨ i = .viewPm25Only) →
      t.dec = s.dec ∧ t.results = s.results ∧ t.report = s.report ∧ t.line.rx = s.line.rx ∧ t.inputs = s.inputs)

/-- R60, R31, R100: from a sound state no instruction faults. -/
def Obligations.NoInstructionFaultsFromASoundState : Prop :=
  ∀ (i : Instr) (s : State) (f : Fault), s.Inv → exec i s ≠ .fault f

/-- The model's choice (log entry 7): a row executed where its condition does not hold is refused by name. -/
def Obligations.RowsThatDoNotApplyAreRefused : Prop :=
  ∀ (i : Instr) (s : State), i.wf params = false ∨ i.inMode s.dec.mode = false →
    exec i s = .refused .rowConditionFails

/-- The model's choice (log entry 8; R31 gives such a write no behaviour): a store outside the buffer, in a state no run
reaches, faults by name. -/
def Obligations.StoresOutsideTheBufferFault : Prop :=
  ∀ (s : State) (b : Byte), s.dec.st = .receivingPayload → 16 ≤ s.dec.cur →
    exec (.feed b) s = .fault .writeOutsideBuffer ∧ exec (classify params s.dec.mode b) s = .fault .writeOutsideBuffer

/-- R108: the state each error leaves, from a sound state. -/
def Obligations.ErrorsLeaveThePreciseState : Prop :=
  ∀ s : State, s.Inv →
    (∀ (n : Byte) (t : State), exec (.lenReject n) s = .next t →
      t.dec = { s.dec with st := .awaitingHeader, sum := 0x16 + n }) ∧
    (∀ (c : Byte) (t : State), exec (.chkInvalid c) s = .next t →
      t.dec.st = .awaitingHeader ∧ t.dec.sum ≠ 0 ∧ t.dec.len = s.dec.len ∧ t.dec.cur = t.dec.len ∧
      t.dec.buf = s.dec.buf) ∧
    (∀ (p : List Byte) (t : State), exec (.encodeOverflow p) s = .next t → t.dec = s.dec)

/-! ### Invariants -/

/-- The reset state meets the invariant. -/
def Obligations.ResetMeetsTheInvariant : Prop := State.reset.Inv

/-- R23, R120; that the unspecified values are the free values of draw 0 is the model's choice (log entries 1 to 3). -/
def Obligations.ResetLeavesAwaitingHeader : Prop :=
  State.reset.dec.st = .awaitingHeader ∧ resultOutput State.reset = .notComplete ∧
  State.reset.dec.sum = Config.resetSum 0 ∧ State.reset.dec.len = (Config.resetLen 0).toNat ∧
  State.reset.dec.cur = (Config.resetCur 0).toNat ∧ (∀ i, cell State.reset.dec i = Config.resetCell 0 i)

/-- R19, R20: every step, whatever its input, keeps the invariant. -/
def Obligations.StepKeepsTheInvariant : Prop :=
  ∀ s t : State, s.Inv → step s = .next t → t.Inv

/-- R19, for every legal parameter value: its four lines, after any reset and any bytes. -/
def Obligations.ReachableDecodersAreSound : Prop :=
  ∀ (P : Params) (n : Nat) (w : List Byte), P.Legal →
    ∃ (d : Decoder) (rs : List Result), feeds P (.afterReset n) w = .ok (d, rs) ∧
      (d.st = .receivingPayload → d.cur < d.len ∧ d.len < P.rxCap) ∧
      (d.st = .awaitingChecksum → d.cur = d.len ∧ d.len < P.rxCap) ∧
      (d.st = .awaitingLength → d.sum = P.rxHeader) ∧
      (d.st = .receivingPayload ∨ d.st = .awaitingChecksum →
        d.sum = sum8 ([P.rxHeader, lengthByte d.len] ++ cells d d.cur))

/-! ### Laws of the decoder, for every legal parameter value (D1) -/

/-- R73, the acceptance theorem, with the buffer's frame. -/
def Obligations.FramesAreAcceptedOrRejectedByTheirSum : Prop :=
  ∀ (P : Params) (d : Decoder) (p : List Byte) (c : Byte),
    P.Legal → d.st = .awaitingHeader → p.length < P.rxCap →
    ∃ e : Decoder,
      feeds P d ([P.rxHeader, lengthByte p.length] ++ p ++ [c]) =
        .ok (e, List.replicate (p.length + 2) .notComplete ++
          [if sum8 ([P.rxHeader, lengthByte p.length] ++ p ++ [c]) = 0 then .valid else .invalid]) ∧
      e.st = .awaitingHeader ∧ e.len = p.length ∧ e.cur = p.length ∧ e.draw = d.draw ∧
      (∀ i, i < p.length → bufRead e.buf i = p[i]?) ∧
      (∀ a, p.length ≤ a → bufRead e.buf a = bufRead d.buf a)

/-- R74, the resynchronisation theorem. -/
def Obligations.HeaderFreeBytesChangeNothing : Prop :=
  ∀ (P : Params) (d : Decoder) (w : List Byte), d.st = .awaitingHeader → (∀ b ∈ w, b ≠ P.rxHeader) →
    feeds P d w = .ok (d, List.replicate w.length .notComplete)

/-- R75, the length-bound theorem: from a sound decoder no bytes ever write a cell at RX_CAP-1 or above. -/
def Obligations.NoBytesWritePastTheBuffer : Prop :=
  ∀ (P : Params) (d : Decoder), P.Legal → d.Inv P →
    (∀ b : Byte, d.st = .awaitingLength → P.rxCap ≤ b.toNat →
      ∃ e : Decoder, feed P d b = .ok (e, .notComplete) ∧ e.st = .awaitingHeader) ∧
    (∀ w : List Byte, ∃ (e : Decoder) (rs : List Result), feeds P d w = .ok (e, rs) ∧
      ∀ a, P.rxCap ≤ a + 1 → bufRead e.buf a = none)

/-- R76, the checksum-sensitivity theorem, cases (a) and (b) for every parameter value and (c)'s counterexample. -/
def Obligations.SingleBitErrorsAreSeen : Prop :=
  (∀ (P : Params) (d : Decoder) (p : List Byte) (c : Byte) (k j : Nat) (q : List Byte) (x : Byte),
    P.Legal → d.st = .awaitingHeader → p.length < P.rxCap →
    sum8 ([P.rxHeader, lengthByte p.length] ++ p ++ [c]) = 0 →
    j < 8 → k ≤ p.length → q.length = p.length →
    q ++ [x] = (p ++ [c]).modify k (fun b => b ^^^ BitVec.ofNat 8 (2 ^ j)) →
    ∃ e : Decoder,
      feeds P d ([P.rxHeader, lengthByte p.length] ++ q ++ [x]) =
        .ok (e, List.replicate (p.length + 2) .notComplete ++ [.invalid])) ∧
  (∀ (P : Params) (d : Decoder) (w : List Byte) (j : Nat), d.st = .awaitingHeader → j < 8 →
    feeds P d ((P.rxHeader ^^^ BitVec.ofNat 8 (2 ^ j)) :: w) =
      (feeds P d w).map (fun o => (o.1, .notComplete :: o.2))) ∧
  (∀ d : Decoder, d.st = .awaitingHeader →
    (∃ e, feeds params d [0x16, 0x02, 0xEA, 0x00, 0xFE] =
      .ok (e, [.notComplete, .notComplete, .notComplete, .notComplete, .valid])) ∧
    (∃ e, feeds params d [0x16, 0x02 ^^^ 0x02, 0xEA, 0x00, 0xFE] =
      .ok (e, [.notComplete, .notComplete, .valid, .notComplete, .notComplete])))

/-- R24, the dead-field law: in AwaitingHeader nothing future depends on `sum`, `len`, `cur`, `buf`, and in no state
does a result depend on `buf`. -/
def Obligations.DeadFieldsDecideNothing : Prop :=
  ∀ (P : Params) (w : List Byte), P.Legal →
    (∀ d d' : Decoder, d.st = .awaitingHeader → d'.st = .awaitingHeader →
      ∃ (e e' : Decoder) (rs : List Result),
        feeds P d w = .ok (e, rs) ∧ feeds P d' w = .ok (e', rs) ∧ e.st = e'.st ∧
        (rs.getLast? = some .valid → cells e e.len = cells e' e'.len)) ∧
    (∀ (d e : Decoder) (m : Memory) (rs : List Result), feeds P d w = .ok (e, rs) →
      ∃ e' : Decoder, feeds P { d with buf := m } w = .ok (e', rs) ∧ e.st = e'.st)

/-- R125, R78: an abandoned attempt with `remaining` bytes wanted swallows `remaining + 1` bytes, whatever they are,
completes, and leaves the decoder scanning. -/
def Obligations.LeftoverAttemptSwallowsBytes : Prop :=
  ∀ (P : Params) (d : Decoder) (w : List Byte),
    d.st = .receivingPayload → d.cur < d.len → d.len < P.rxCap → w.length = d.len - d.cur + 1 →
    ∃ (e : Decoder) (r : Result),
      feeds P d w = .ok (e, List.replicate (d.len - d.cur) .notComplete ++ [r]) ∧
      r ≠ .notComplete ∧ e.st = .awaitingHeader ∧ e.len = d.len ∧ e.cur = d.len

/-- R130: the sum does not see the order of the payload bytes. -/
def Obligations.ReorderedPayloadStaysValid : Prop :=
  ∀ (P : Params) (d : Decoder) (p q : List Byte) (c : Byte),
    P.Legal → d.st = .awaitingHeader → p.length < P.rxCap → p.Perm q →
    sum8 ([P.rxHeader, lengthByte p.length] ++ p ++ [c]) = 0 →
    ∃ e : Decoder,
      feeds P d ([P.rxHeader, lengthByte p.length] ++ q ++ [c]) =
        .ok (e, List.replicate (p.length + 2) .notComplete ++ [.valid]) ∧
      cells e e.len = q

/-! ### The encoder -/

/-- R83. -/
def Obligations.EncodeReturnsTheFrame : Prop :=
  ∀ (s : State) (p : List Byte), p.length + 3 ≤ 16 →
    exec (.encodeOk p) s =
      .next { s with enc := some (.frame ([0x11, BitVec.ofNat 8 p.length] ++ p ++
        [neg8 (sum8 ([0x11, BitVec.ofNat 8 p.length] ++ p))])) }

/-- R82. -/
def Obligations.EncodeRefusesOversizedPayloads : Prop :=
  ∀ (s : State) (p : List Byte), 16 < p.length + 3 →
    exec (.encodeOverflow p) s = .next { s with enc := some .overflow }

/-- R85. -/
def Obligations.EncodedFramesSumToZero : Prop :=
  ∀ (P : Params) (p f : List Byte), encoder P p = .frame f → sum8 f = 0

/-- R84. -/
def Obligations.ChecksumIsTheOnlyBalancingByte : Prop :=
  ∀ s : List Byte, chk s = neg8 (sum8 s) ∧ sum8 (s ++ [chk s]) = 0 ∧ ∀ c : Byte, sum8 (s ++ [c]) = 0 → c = chk s

/-- R88. -/
def Obligations.EncodedLengthByteIsTrue : Prop :=
  ∀ (P : Params) (p f : List Byte), P.Legal → encoder P p = .frame f →
    (f[1]?).map BitVec.toNat = some p.length ∧ p.length ≤ P.txCap - 3 ∧ p.length ≤ 255 ∧ f.length = p.length + 3

/-- R89. -/
def Obligations.RequestFramesAreTheWireConstants : Prop :=
  ∀ s : State,
    exec (.encodeOk [0x02]) s = .next { s with enc := some (.frame [0x11, 0x01, 0x02, 0xEC]) } ∧
    exec (.encodeOk [0x0B, 0x01]) s = .next { s with enc := some (.frame [0x11, 0x02, 0x0B, 0x01, 0xE1]) }

/-- R86, C4: the round trip over the common frame format, and the encoder's own frames are garbage to the decoder. -/
def Obligations.RoundTripHoldsForTheFormat : Prop :=
  ∀ (P : Params) (d : Decoder) (p : List Byte), P.Legal → d.st = .awaitingHeader →
    (p.length + 3 ≤ P.txCap → encoder P p = .frame (frame P.txHeader p)) ∧
    (p.length < P.rxCap →
      ∃ e : Decoder, feeds P d (frame P.rxHeader p) =
        .ok (e, List.replicate (p.length + 2) .notComplete ++ [.valid]) ∧ cells e e.len = p) ∧
    (∀ f, encoder P p = .frame f → (∀ b ∈ f, b ≠ P.rxHeader) →
      feeds P d f = .ok (d, List.replicate f.length .notComplete))

/-- R135: the encoder's ports, and the input that drives them (recording its outcome in `enc` is log entry 4). That
`frameLen` is the number L + 3 also for a TX_CAP above 255, where the spec's 8-bit port cannot hold every such number, is
the model's choice (log entry 19). -/
def Obligations.EncoderPortsShowTheFrame : Prop :=
  (∀ (P : Params) (e : EncoderPorts P),
    (encOk e = true ↔ e.cmdLen.toNat + 3 ≤ P.txCap) ∧
    frameLen e = (if e.cmdLen.toNat + 3 ≤ P.txCap then e.cmdLen.toNat + 3 else 0) ∧
    (e.cmdLen.toNat + 3 ≤ P.txCap →
      (portPayload e).length = e.cmdLen.toNat ∧
      (∀ i, i < e.cmdLen.toNat → (portPayload e)[i]? = e.cmdData[i]?) ∧
      encoder P (portPayload e) = .frame (frame P.txHeader (portPayload e)) ∧
      ∀ j, j < frameLen e → frameAt e j = (frame P.txHeader (portPayload e))[j]?) ∧
    (∀ e' : EncoderPorts P, e'.cmdLen = e.cmdLen →
      (∀ i, i < e.cmdLen.toNat → e'.cmdData[i]? = e.cmdData[i]?) →
      encOk e' = encOk e ∧ frameLen e' = frameLen e ∧ ∀ j, j < frameLen e → frameAt e' j = frameAt e j)) ∧
  (∀ (s : State) (e : EncoderPorts params) (rest : List Input), s.inputs = .encoderPorts e :: rest →
    step s = .next { s with
      enc := some (if e.cmdLen.toNat + 3 ≤ 16 then .frame (frame 0x11 (portPayload e)) else .overflow)
      inputs := rest })

/-! ### Frames, commands, responses (what executing these rows does is the model's reading, log entry 9) -/

/-- R41, R73: a well-formed response frame fed from AwaitingHeader; R66 for one that is too long. -/
def Obligations.ResponseFrameIsReceived : Prop :=
  ∀ (s : State) (n : Byte) (p : List Byte) (c : Byte),
    Instr.wf params (.frameResponse n p c) = true →
    (s.dec.st = .awaitingHeader → n.toNat < 16 →
      ∃ d : Decoder,
        exec (.frameResponse n p c) s =
          .next { s with dec := d, results := List.replicate (p.length + 2) .notComplete ++ [.valid] } ∧
        d.st = .awaitingHeader ∧ d.sum = 0 ∧ d.len = p.length ∧ d.cur = p.length ∧ d.draw = s.dec.draw ∧
        (∀ i, i < p.length → bufRead d.buf i = p[i]?) ∧
        (∀ a, p.length ≤ a → bufRead d.buf a = bufRead s.dec.buf a)) ∧
    (s.Inv →
      ∃ (d : Decoder) (rs : List Result),
        feeds params s.dec (0x16 :: n :: (p ++ [c])) = .ok (d, rs) ∧ rs.length = p.length + 3 ∧
        exec (.frameResponse n p c) s = .next { s with dec := d, results := rs })

/-- R42, R82, R83: the request frame the encoder produces, or its refusal. -/
def Obligations.RequestFrameIsProduced : Prop :=
  ∀ (s : State) (n : Byte) (p : List Byte) (c : Byte),
    Instr.wf params (.frameRequest n p c) = true →
    exec (.frameRequest n p c) s =
      if p.length + 3 ≤ 16 then
        .next { s with
          enc := some (.frame (0x11 :: n :: (p ++ [c])))
          line := { s.line with tx := s.line.tx ++ (0x11 :: n :: (p ++ [c])) } }
      else .next { s with enc := some .overflow }

/-- R89, R90: the two command rows. -/
def Obligations.CommandsAreEncodedAndWritten : Prop :=
  ∀ s : State,
    exec .cmdFullMeasurement s =
      .next { s with
        enc := some (.frame [0x11, 0x01, 0x02, 0xEC])
        line := { s.line with tx := s.line.tx ++ [0x11, 0x01, 0x02, 0xEC] } } ∧
    exec .cmdPm25Only s =
      .next { s with
        enc := some (.frame [0x11, 0x02, 0x0B, 0x01, 0xE1])
        line := { s.line with tx := s.line.tx ++ [0x11, 0x02, 0x0B, 0x01, 0xE1] } }

/-- R53, R91, R93: a full-measurement response that fits is received and its fields reported. -/
def Obligations.FullResponseIsReported : Prop :=
  ∀ (s : State) (r : FullPayload),
    s.dec.st = .awaitingHeader → s.line.rx = [] → (fullPayloadBytes r).length < 16 →
    ∃ d : Decoder,
      exec (.rspFullMeasurement r) s =
        .next { s with
          dec := d
          results := List.replicate ((fullPayloadBytes r).length + 2) .notComplete ++ [.valid]
          report := some (.full { pm2_5 := r.pm2_5, pm1_0 := r.pm1_0, pm10 := r.pm10 }) } ∧
      d.st = .awaitingHeader ∧ d.sum = 0 ∧ d.len = (fullPayloadBytes r).length ∧ d.cur = d.len ∧
      d.draw = s.dec.draw ∧ cells d d.len = fullPayloadBytes r ∧
      (∀ a, (fullPayloadBytes r).length ≤ a → bufRead d.buf a = bufRead s.dec.buf a)

/-- R54, R91, R94: likewise for the PM2.5-only response. -/
def Obligations.Pm25ResponseIsReported : Prop :=
  ∀ (s : State) (r : Pm25Payload),
    s.dec.st = .awaitingHeader → s.line.rx = [] → (pm25PayloadBytes r).length < 16 →
    ∃ d : Decoder,
      exec (.rspPm25Only r) s =
        .next { s with
          dec := d
          results := List.replicate ((pm25PayloadBytes r).length + 2) .notComplete ++ [.valid]
          report := some (.pm25 r.pm2_5) } ∧
      d.st = .awaitingHeader ∧ d.sum = 0 ∧ d.len = (pm25PayloadBytes r).length ∧ d.cur = d.len ∧
      d.draw = s.dec.draw ∧ cells d d.len = pm25PayloadBytes r ∧
      (∀ a, (pm25PayloadBytes r).length ≤ a → bufRead d.buf a = bufRead s.dec.buf a)

/-- R91, R105, R127: from every sound state a response row completes (that executing it receives and concludes is the
model's choice, log entry 9). What it changes is what awaiting a valid frame in the bytes received so far and the
response's own changes, and the report: the conclusion for the row's command from the first valid frame, be it a stale
one, or what it was when no valid frame came. -/
def Obligations.ResponsesCompleteFromSoundStates : Prop :=
  ∀ (s : State) (i : Instr) (c : Command) (payload : List Byte),
    ((∃ r, i = .rspFullMeasurement r ∧ c = .fullMeasurement ∧ payload = fullPayloadBytes r) ∨
      (∃ r, i = .rspPm25Only r ∧ c = .pm25Only ∧ payload = pm25PayloadBytes r)) →
    i.wf params = true → s.Inv →
    ∃ (a : Await) (rep : Option Report),
      awaitValid params s.dec (s.line.rx ++ frame 0x16 payload) = .ok a ∧
      exec i s = .next { s with
        dec := a.dec, results := a.results, line := { s.line with rx := a.unfed }, report := rep } ∧
      (a.gotFrame = true → ∃ r, conclude params c a.dec = .ok r ∧ rep = some r ∧
        (cell a.dec 0 ≠ commandCode c → r = .failed .cmdMismatch)) ∧
      (a.gotFrame = false → rep = s.report)

/-- R91 (c): awaiting a valid frame is feeding the received bytes in order up to the first VALID result; what was not
fed is the rest. -/
def Obligations.AwaitingFeedsUpToTheFirstValid : Prop :=
  ∀ (P : Params) (d : Decoder) (w : List Byte) (a : Await), awaitValid P d w = .ok a →
    ∃ fed : List Byte, w = fed ++ a.unfed ∧ feeds P d fed = .ok (a.dec, a.results) ∧
      (a.gotFrame = true → ∃ rs, a.results = rs ++ [.valid] ∧ .valid ∉ rs) ∧
      (a.gotFrame = false → a.unfed = [] ∧ .valid ∉ a.results)

/-! ### Views and the caller -/

/-- R92, with the echo check. -/
def Obligations.EchoViewReadsCellZero : Prop :=
  ∀ s : State,
    exec .viewEcho s = .next { s with view := some (.echo (cell s.dec 0)) } ∧
    ∀ c : Command, conclude params c s.dec = .ok (.failed .cmdMismatch) ↔ cell s.dec 0 ≠ commandCode c

/-- R93: at its three offsets, most significant byte first. -/
def Obligations.FullViewReadsTheThreeFields : Prop :=
  ∀ s : State, ∃ a b c : Half,
    exec .viewFullMeasurement s = .next { s with view := some (.full { pm2_5 := a, pm1_0 := b, pm10 := c }) } ∧
    a.toNat = (cell s.dec 3).toNat * 256 + (cell s.dec 4).toNat ∧
    b.toNat = (cell s.dec 7).toNat * 256 + (cell s.dec 8).toNat ∧
    c.toNat = (cell s.dec 11).toNat * 256 + (cell s.dec 12).toNat

/-- R94. -/
def Obligations.Pm25ViewReadsOneField : Prop :=
  ∀ s : State, ∃ a : Half,
    exec .viewPm25Only s = .next { s with view := some (.pm25 a) } ∧
    a.toNat = (cell s.dec 3).toNat * 256 + (cell s.dec 4).toNat

/-- R32: a payload read returns the cell and changes nothing else; outside the buffer it is refused. -/
def Obligations.PayloadReadsAreBounded : Prop :=
  ∀ (s : State) (i : Nat) (rest : List Input), s.inputs = .readPayload i :: rest →
    (i < 16 → step s = .next { s with view := some (.cell (cell s.dec i)), inputs := rest }) ∧
    (16 ≤ i → step s = .refused .readOutsideBuffer)

/-- R104, R79, and R98's scenario of a silent line as the case of no byte: a request that finds no valid frame among the
bytes received has sent its frame (R89) and times out, the decoder keeping what the bytes left. That the whole wait is
one step, over when the received bytes are, is the model's choice (log entry 12). -/
def Obligations.SilentLineTimesOut : Prop :=
  ∀ (s : State) (c : Command) (request : List Byte) (rest : List Input),
    s.inputs = .request c :: rest →
    (c = .fullMeasurement ∧ request = [0x11, 0x01, 0x02, 0xEC] ∨
      c = .pm25Only ∧ request = [0x11, 0x02, 0x0B, 0x01, 0xE1]) →
    (∀ a : Await, awaitValid params s.dec s.line.rx = .ok a → a.gotFrame = false →
      feeds params s.dec s.line.rx = .ok (a.dec, a.results) ∧ .valid ∉ a.results ∧
      step s = .next { s with
        dec := a.dec
        results := a.results
        enc := some (.frame request)
        line := { rx := [], tx := s.line.tx ++ request }
        report := some (.failed .timeout)
        inputs := rest }) ∧
    (s.line.rx = [] →
      step s = .next { s with
        results := []
        enc := some (.frame request)
        line := { rx := [], tx := s.line.tx ++ request }
        report := some (.failed .timeout)
        inputs := rest })

/-- R91, R105, R123: a request sends its frame (R89), and the first valid frame decides it; the bytes after that frame
stay unread. That a request is one step over the bytes already arrived, and that what it does not read stays in
`line.rx`, is the model's choice (log entry 12). -/
def Obligations.FirstValidFrameDecidesTheRequest : Prop :=
  ∀ (s : State) (c : Command) (request : List Byte) (rest : List Input) (junk p after : List Byte),
    s.inputs = .request c :: rest →
    (c = .fullMeasurement ∧ request = [0x11, 0x01, 0x02, 0xEC] ∨
      c = .pm25Only ∧ request = [0x11, 0x02, 0x0B, 0x01, 0xE1]) →
    s.dec.st = .awaitingHeader → (∀ b ∈ junk, b ≠ 0x16) → p.length < 16 →
    s.line.rx = junk ++ frame 0x16 p ++ after →
    ∃ (d : Decoder) (r : Report),
      step s = .next { s with
        dec := d
        results := List.replicate (junk.length + (p.length + 2)) .notComplete ++ [.valid]
        enc := some (.frame request)
        line := { rx := after, tx := s.line.tx ++ request }
        report := some r
        inputs := rest } ∧
      d.st = .awaitingHeader ∧ d.sum = 0 ∧ d.len = p.length ∧ d.cur = d.len ∧ d.draw = s.dec.draw ∧
      cells d d.len = p ∧ (∀ a, p.length ≤ a → bufRead d.buf a = bufRead s.dec.buf a) ∧
      conclude params c d = .ok r ∧
      (1 ≤ p.length → p.head? ≠ some (commandCode c) → r = .failed .cmdMismatch) ∧
      (p.head? = some (commandCode c) → c = .fullMeasurement → 13 ≤ p.length →
        ∃ m : FullMeasurement, r = .full m ∧
          (p[3]?).bind (fun h => (p[4]?).map (be16 h)) = some m.pm2_5 ∧
          (p[7]?).bind (fun h => (p[8]?).map (be16 h)) = some m.pm1_0 ∧
          (p[11]?).bind (fun h => (p[12]?).map (be16 h)) = some m.pm10) ∧
      (p.head? = some (commandCode c) → c = .pm25Only → 5 ≤ p.length →
        ∃ v : Half, r = .pm25 v ∧ (p[3]?).bind (fun h => (p[4]?).map (be16 h)) = some v)

/-! ### The step, decoding and encoding -/

/-- The step runs the instruction its input decodes to, with that input removed (that operations stand in a list of
inputs is the model's choice, log entry 5). A byte string that is the word of no row is no stop: its bytes are received
(R8, R50, R55, R96; how is the model's choice, log entry 9). Every call completes from a sound state (R60). -/
def Obligations.StepRunsTheDecodedInstruction : Prop :=
  ∀ (s : State) (c : Call) (rest : List Input), s.inputs = .call c :: rest →
    (∀ i, decode params s.dec.mode c = .ok i → step s = exec i { s with inputs := rest }) ∧
    (∀ e, decode params s.dec.mode c = .error e →
      (∀ bs, c = .frame bs ∨ (c = .payload bs ∧ 255 < bs.length) →
        step s = feedBytes bs { s with inputs := rest }) ∧
      (∀ bs, c = .payload bs → bs.length ≤ 255 →
        (∀ k, bs.head? = some (commandCode k) → step s = receiveResponse k bs { s with inputs := rest }) ∧
        ((∀ k, bs.head? ≠ some (commandCode k)) →
          step s = feedBytes (frame 0x16 bs) { s with inputs := rest }))) ∧
    (s.Inv → ∃ t, step s = .next t ∧ t.inputs = rest)

/-- R132, R134, D14: with no input, or a clock cycle without a byte, no register changes. -/
def Obligations.NothingHappensWithoutInput : Prop :=
  ∀ s : State,
    (s.inputs = [] → step s = .next s) ∧
    (∀ b rest, s.inputs = .clock false false b :: rest → step s = .next { s with results := [], inputs := rest })

/-- R134, R120, D7: hardware reset wins over a byte and forces AwaitingHeader; a cycle with a byte performs its FEED. -/
def Obligations.ClockCyclesResetOrFeed : Prop :=
  ∀ (s : State) (v : Bool) (b : Byte) (rest : List Input),
    (s.inputs = .clock true v b :: rest →
      ∃ t, step s = .next t ∧ t.dec.st = .awaitingHeader ∧ t.results = [] ∧ t.enc = s.enc ∧ t.inputs = rest) ∧
    (s.inputs = .clock false true b :: rest → step s = exec (.feed b) { s with inputs := rest })

/-- A word of the opcode table, placed before the step, is run by it (log entry 6). -/
def Obligations.PlacedTableWordsRun : Prop :=
  ∀ (s : State) (nbits w : Nat) (i : Instr), decodeTableWord nbits w = some i →
    step (s.withFetchWord nbits w) = exec i { s.withFetchWord nbits w with inputs := s.inputs }

/-- R46, R62 to R65, R89, R53: words written out from the table's encodings. -/
def Obligations.WrittenWordsDecode : Prop :=
  (∀ m : Mode, m.st = .awaitingHeader → decode params m (.rx 0b00010110) = .ok .hdrSync) ∧
  (∀ m : Mode, m.st = .awaitingLength → decode params m (.rx 0b00001101) = .ok (.lenAccept 13)) ∧
  (∀ m : Mode, decode params m (.frame [0b00010001, 0b00000001, 0b00000010, 0b11101100]) = .ok .cmdFullMeasurement) ∧
  (∀ m : Mode, decode params m (.frame [0b00010110, 0b00000001, 0b00000010, 0b11100111]) =
    .ok (.frameResponse 1 [2] 0xE7)) ∧
  (∀ m : Mode, decode params m (.payload [0b00001011, 0, 0, 0, 0b00100011]) =
    .ok (.rspPm25Only ⟨0, 0, 35, []⟩))

/-- R46, R58: decoding an encoded well-formed instruction, in a mode its row is read in, gives it back. -/
def Obligations.DecodeOfEncodeIsTheInstruction : Prop :=
  ∀ (i : Instr) (m : Mode), i.wf params = true → i.inMode m = true →
    decode params m (encode params i) = .ok i

/-- R46, R58: what the decoder answers is well-formed, is read in that mode, and encodes to what was decoded. -/
def Obligations.EncodeOfDecodeIsTheCall : Prop :=
  ∀ (m : Mode) (c : Call) (i : Instr), decode params m c = .ok i →
    i.wf params = true ∧ i.inMode m = true ∧ encode params i = c
end

