-- ==== Sys2Proof/Laws/Buffer.lean ====
section
/-! SUPPORT. The payload buffer: a read after a write, the canonical form, the checked accesses. -/

namespace Sys2Proof.Laws

open Sys2Proof.Machine

@[simp] theorem bufRead_nil (a : Nat) : bufRead [] a = none := rfl

@[simp] theorem bufRead_bufWrite_same (m : Memory) (a : Nat) (b : Byte) : bufRead (bufWrite m a b) a = some b := by
  induction m with
  | nil => simp [bufWrite, bufRead]
  | cons c m ih =>
    obtain ⟨k, v⟩ := c
    simp only [bufWrite]
    split_ifs with h₁ h₂
    · simp [bufRead]
    · simp [bufRead]
    · simp [bufRead, ih, Ne.symm h₂]

theorem bufRead_bufWrite_other (m : Memory) {a x : Nat} (b : Byte) (h : x ≠ a) :
    bufRead (bufWrite m a b) x = bufRead m x := by
  induction m with
  | nil => simp [bufWrite, bufRead, Ne.symm h]
  | cons c m ih =>
    obtain ⟨k, v⟩ := c
    simp only [bufWrite]
    split_ifs with h₁ h₂
    · simp [bufRead, Ne.symm h]
    · subst h₂; simp [bufRead, Ne.symm h]
    · simp [bufRead, ih]

theorem bufRead_bufWrite (m : Memory) (a x : Nat) (b : Byte) :
    bufRead (bufWrite m a b) x = if x = a then some b else bufRead m x := by
  split_ifs with h
  · subst h; simp
  · exact bufRead_bufWrite_other m b h

theorem bufWrite_index_mem {m : Memory} {a : Nat} {b : Byte} {c : Host.Cell} (h : c ∈ bufWrite m a b) :
    c.1 = a ∨ c ∈ m := by
  induction m with
  | nil => simp [bufWrite] at h; simp [h]
  | cons d m ih =>
    obtain ⟨k, v⟩ := d
    simp only [bufWrite] at h
    split_ifs at h with h₁ h₂
    · rcases List.mem_cons.1 h with h | h
      · simp [h]
      · exact .inr h
    · rcases List.mem_cons.1 h with h | h
      · simp [h]
      · exact .inr (List.mem_cons_of_mem _ h)
    · rcases List.mem_cons.1 h with h | h
      · simp [h]
      · rcases ih h with h | h
        · exact .inl h
        · exact .inr (List.mem_cons_of_mem _ h)

/-- The empty buffer, the one after reset, is in canonical form. -/
theorem wf_nil : Memory.wf [] := List.Pairwise.nil

/-- Writing keeps the canonical form: no other operation changes the buffer. -/
theorem bufWrite_wf {m : Memory} (h : m.wf) (a : Nat) (b : Byte) : (bufWrite m a b).wf := by
  induction m with
  | nil => simp [bufWrite, Memory.wf]
  | cons c m ih =>
    obtain ⟨k, v⟩ := c
    obtain ⟨hk, hm⟩ := List.pairwise_cons.1 h
    simp only [bufWrite]
    split_ifs with h₁ h₂
    · exact List.pairwise_cons.2 ⟨fun d hd => by
        rcases List.mem_cons.1 hd with hd | hd
        · simpa [hd] using h₁
        · exact lt_trans h₁ (hk d hd), h⟩
    · subst h₂; exact List.pairwise_cons.2 ⟨hk, hm⟩
    · refine List.pairwise_cons.2 ⟨fun d hd => ?_, ih hm⟩
      rcases bufWrite_index_mem hd with hd | hd
      · show k < d.1; omega
      · exact hk d hd

theorem memWrite_ok {P : Params} {d : Decoder} {i : Nat} (v : Byte) (h : i < P.rxCap) :
    memWrite P d i v = .ok { d with buf := bufWrite d.buf i v } := by
  simp [memWrite, h]

theorem memWrite_error {P : Params} {d : Decoder} {i : Nat} (v : Byte) (h : P.rxCap ≤ i) :
    memWrite P d i v = .error .writeOutsideBuffer := by
  simp [memWrite, Nat.not_lt.2 h]

theorem memRead_ok {P : Params} {d : Decoder} {i : Nat} (h : i < P.rxCap) : memRead P d i = .ok (cell d i) := by
  simp [memRead, h]

/-- A written cell shows what was written. -/
theorem cell_of_bufRead {d : Decoder} {i : Nat} {b : Byte} (h : bufRead d.buf i = some b) : cell d i = b := by
  simp [cell, h]

@[simp] theorem length_cells (d : Decoder) (n : Nat) : (cells d n).length = n := by simp [cells]

theorem cells_succ (d : Decoder) (n : Nat) : cells d (n + 1) = cells d n ++ [cell d n] := by
  simp [cells, List.range_succ]

/-- Two decoders whose cells below `n` show the same bytes show the same prefix. -/
theorem cells_congr {d e : Decoder} {n : Nat} (h : ∀ i, i < n → cell d i = cell e i) : cells d n = cells e n := by
  refine List.map_congr_left fun i hi => h i (List.mem_range.1 hi)

/-- Cells that were all written with the bytes of `p` show `p`. -/
theorem cells_eq_of_bufRead {d : Decoder} {p : List Byte} (h : ∀ i, i < p.length → bufRead d.buf i = p[i]?) :
    cells d p.length = p := by
  refine List.ext_getElem (by simp) fun i h₁ h₂ => ?_
  have := h i h₂
  rw [List.getElem?_eq_getElem h₂] at this
  simp [cells, cell_of_bufRead this]

end Sys2Proof.Laws
end

