-- ==== Sys2Proof/Laws/Bytes.lean ====
section
/-! SUPPORT. Checksum arithmetic, big-endian fields and frames. -/

namespace Sys2Proof.Laws

@[simp] theorem sum8_nil : sum8 [] = 0 := rfl

@[simp] theorem sum8_cons (b : Byte) (bs : List Byte) : sum8 (b :: bs) = b + sum8 bs := rfl

@[simp] theorem sum8_append (s t : List Byte) : sum8 (s ++ t) = sum8 s + sum8 t := by
  induction s with
  | nil => simp
  | cons b bs ih => simp [ih, BitVec.add_assoc]

/-- The sum does not see the order of its bytes. -/
theorem sum8_perm {s t : List Byte} (h : s.Perm t) : sum8 s = sum8 t := by
  induction h with
  | nil => rfl
  | cons x _ ih => simp [ih]
  | swap x y l => simp [← BitVec.add_assoc, BitVec.add_comm x y]
  | trans _ _ ih₁ ih₂ => exact ih₁.trans ih₂

theorem neg8_eq_neg (v : Byte) : neg8 v = -v := by
  apply BitVec.eq_of_toNat_eq
  simp [neg8, BitVec.toNat_neg]

theorem add_neg8 (v : Byte) : v + neg8 v = 0 := by
  rw [neg8_eq_neg]; bv_omega

theorem eq_neg8_of_add_eq_zero {v c : Byte} (h : v + c = 0) : c = neg8 v := by
  rw [neg8_eq_neg]
  bv_omega

/-- The generator balances what it was computed from. -/
theorem sum8_append_chk (s : List Byte) : sum8 (s ++ [chk s]) = 0 := by
  simp [chk, add_neg8]

theorem sum8_frame (h : Byte) (p : List Byte) : sum8 (frame h p) = 0 := by
  unfold frame; exact sum8_append_chk _

@[simp] theorem length_frame (h : Byte) (p : List Byte) : (frame h p).length = p.length + 3 := by
  simp [frame]

theorem frame_eq_cons (h : Byte) (p : List Byte) :
    frame h p = h :: lengthByte p.length :: (p ++ [chk (h :: lengthByte p.length :: p)]) := rfl

/-- A well-formed frame is the frame of its payload: its length byte and checksum say nothing more. -/
theorem frame_of_wellFormed {h n c : Byte} {p : List Byte} (hw : frameWellFormed h n p c = true) :
    h :: n :: (p ++ [c]) = frame h p := by
  simp only [frameWellFormed, Bool.and_eq_true, decide_eq_true_eq] at hw
  obtain ⟨hl, hs⟩ := hw
  have hn : lengthByte p.length = n := by rw [hl]; simp [lengthByte]
  rw [frame_eq_cons, hn]
  have : c = chk (h :: n :: p) := eq_neg8_of_add_eq_zero (by simpa [BitVec.add_assoc] using hs)
  rw [this]

theorem commandCode_injective {c k : Command} (h : commandCode c = commandCode k) : c = k := by
  cases c <;> cases k <;> simp [commandCode] at h ⊢

/-- A payload echoes a command exactly if it starts with its code. -/
theorem echoedCommand_eq_some {bs : List Byte} {c : Command} :
    echoedCommand bs = some c ↔ bs.head? = some (commandCode c) := by
  cases bs with
  | nil => simp [echoedCommand]
  | cons e bs =>
    simp only [echoedCommand, List.head?_cons, Option.some.injEq]
    split_ifs with h₁ h₂
    · simp only [Option.some.injEq, h₁]
      exact ⟨fun h => h ▸ rfl, commandCode_injective⟩
    · simp only [Option.some.injEq, h₂]
      exact ⟨fun h => h ▸ rfl, commandCode_injective⟩
    · cases c <;> simp [h₁, h₂]

@[simp] theorem toNat_lengthByte {l : Nat} (h : l < 256) : (lengthByte l).toNat = l := by
  simp [lengthByte, h]

@[simp] theorem lengthByte_toNat (n : Byte) : lengthByte n.toNat = n := by
  simp [lengthByte]

theorem toNat_be16 (h l : Byte) : (be16 h l).toNat = h.toNat * 256 + l.toNat := by
  have := h.isLt; have := l.isLt
  simp only [be16, BitVec.toNat_ofNat]; omega

@[simp] theorem be16_hiByte_loByte (v : Half) : be16 (hiByte v) (loByte v) = v := by
  have := v.isLt
  apply BitVec.eq_of_toNat_eq
  rw [toNat_be16]
  simp only [hiByte, loByte, BitVec.toNat_ofNat]; omega

@[simp] theorem hiByte_be16 (h l : Byte) : hiByte (be16 h l) = h := by
  have := h.isLt; have := l.isLt
  apply BitVec.eq_of_toNat_eq
  rw [hiByte, toNat_be16]; simp only [BitVec.toNat_ofNat]; omega

@[simp] theorem loByte_be16 (h l : Byte) : loByte (be16 h l) = l := by
  have := h.isLt; have := l.isLt
  apply BitVec.eq_of_toNat_eq
  rw [loByte, toNat_be16]; simp only [BitVec.toNat_ofNat]; omega

end Sys2Proof.Laws
end

