-- ==== Sys2Proof/Laws/State.lean ====
section
/-! SUPPORT. One lemma per field per state update, true by rfl. -/

namespace Sys2Proof.Laws

open Sys2Proof.Machine

section
variable (s : State) (d : Decoder) (r : Result) (bs : List Byte) (n : Nat) (P : Params) (p : List Byte)

@[simp] theorem fed_dec : (s.fed d r).dec = d := rfl
@[simp] theorem fed_results : (s.fed d r).results = [r] := rfl
@[simp] theorem fed_enc : (s.fed d r).enc = s.enc := rfl
@[simp] theorem fed_view : (s.fed d r).view = s.view := rfl
@[simp] theorem fed_line : (s.fed d r).line = s.line := rfl
@[simp] theorem fed_report : (s.fed d r).report = s.report := rfl
@[simp] theorem fed_inputs : (s.fed d r).inputs = s.inputs := rfl

@[simp] theorem arrive_dec : (arrive s bs).dec = s.dec := rfl
@[simp] theorem arrive_results : (arrive s bs).results = s.results := rfl
@[simp] theorem arrive_enc : (arrive s bs).enc = s.enc := rfl
@[simp] theorem arrive_view : (arrive s bs).view = s.view := rfl
@[simp] theorem arrive_rx : (arrive s bs).line.rx = s.line.rx ++ bs := rfl
@[simp] theorem arrive_tx : (arrive s bs).line.tx = s.line.tx := rfl
@[simp] theorem arrive_report : (arrive s bs).report = s.report := rfl
@[simp] theorem arrive_inputs : (arrive s bs).inputs = s.inputs := rfl

@[simp] theorem hardReset_dec : (hardReset s).dec = .afterReset (s.dec.draw + 1) := rfl
@[simp] theorem hardReset_results : (hardReset s).results = [] := rfl
@[simp] theorem hardReset_enc : (hardReset s).enc = s.enc := rfl
@[simp] theorem hardReset_view : (hardReset s).view = s.view := rfl
@[simp] theorem hardReset_line : (hardReset s).line = s.line := rfl
@[simp] theorem hardReset_report : (hardReset s).report = s.report := rfl
@[simp] theorem hardReset_inputs : (hardReset s).inputs = s.inputs := rfl

@[simp] theorem afterReset_st : (Decoder.afterReset n).st = .awaitingHeader := rfl
@[simp] theorem afterReset_sum : (Decoder.afterReset n).sum = Config.resetSum n := rfl
@[simp] theorem afterReset_len : (Decoder.afterReset n).len = (Config.resetLen n).toNat := rfl
@[simp] theorem afterReset_cur : (Decoder.afterReset n).cur = (Config.resetCur n).toNat := rfl
@[simp] theorem afterReset_buf : (Decoder.afterReset n).buf = [] := rfl
@[simp] theorem afterReset_draw : (Decoder.afterReset n).draw = n := rfl

/-- Writing a request frame touches the encoder's output and the transport's outgoing bytes only. -/
@[simp] theorem transmit_dec : (transmit P s p).dec = s.dec := by unfold transmit; split <;> rfl
@[simp] theorem transmit_results : (transmit P s p).results = s.results := by unfold transmit; split <;> rfl
@[simp] theorem transmit_view : (transmit P s p).view = s.view := by unfold transmit; split <;> rfl
@[simp] theorem transmit_rx : (transmit P s p).line.rx = s.line.rx := by unfold transmit; split <;> rfl
@[simp] theorem transmit_report : (transmit P s p).report = s.report := by unfold transmit; split <;> rfl
@[simp] theorem transmit_inputs : (transmit P s p).inputs = s.inputs := by unfold transmit; split <;> rfl
@[simp] theorem transmit_enc : (transmit P s p).enc = some (encoder P p) := by
  unfold transmit; split <;> next h => simp [h]
end

/-- This hardware's parameters are a legal configuration (92_eei_decisions.md D2). -/
theorem params_legal : params.Legal := by decide

end Sys2Proof.Laws
end

