-- ==== Sys2Proof/Laws/Feed.lean ====
section
/-! SUPPORT. FEED and FEEDS: what one byte can do, said once, arm by arm and as one case list; feeding in two parts. -/

namespace Sys2Proof.Laws

open Sys2Proof.Machine

section
variable {P : Params} {d e : Decoder} {b : Byte} {r : Result}

theorem feed_header (h : d.st = .awaitingHeader) :
    feed P d P.rxHeader = .ok ({ d with sum := P.rxHeader, st := .awaitingLength }, .notComplete) := by
  simp [feed, h]

theorem feed_skip (h : d.st = .awaitingHeader) (hb : b ≠ P.rxHeader) : feed P d b = .ok (d, .notComplete) := by
  simp [feed, h, hb]

theorem feed_length_zero (h : d.st = .awaitingLength) (hP : 1 ≤ P.rxCap) :
    feed P d 0 = .ok ({ d with len := 0, cur := 0, st := .awaitingChecksum }, .notComplete) := by
  have : 0 < P.rxCap := hP
  simp [feed, h, lengthAccepted, this]

theorem feed_length (h : d.st = .awaitingLength) (hb : b.toNat < P.rxCap) (h0 : b ≠ 0) :
    feed P d b = .ok ({ d with sum := d.sum + b, len := b.toNat, cur := 0, st := .receivingPayload }, .notComplete) := by
  simp only [feed, h, lengthAccepted, hb, decide_true, if_true, if_neg h0]

theorem feed_length_rejected (h : d.st = .awaitingLength) (hb : P.rxCap ≤ b.toNat) :
    feed P d b = .ok ({ d with sum := d.sum + b, st := .awaitingHeader }, .notComplete) := by
  simp [feed, h, lengthAccepted, Nat.not_lt.2 hb]

/-- PAY.STORE and PAY.LAST in one: the tag after the byte says whether it was the last. -/
theorem feed_payload (h : d.st = .receivingPayload) (hc : d.cur < P.rxCap) :
    feed P d b = .ok ({ d with
      sum := d.sum + b, buf := bufWrite d.buf d.cur b, cur := d.cur + 1,
      st := if d.cur + 1 = d.len then .awaitingChecksum else .receivingPayload }, .notComplete) := by
  simp only [feed, h, memWrite, hc, if_true]
  split_ifs <;> simp

theorem feed_checksum (h : d.st = .awaitingChecksum) :
    feed P d b = .ok ({ d with sum := d.sum + b, st := .awaitingHeader }, completionResult (d.sum + b)) := by
  simp [feed, h]

/-- Everything one FEED can do: one case per arm of R61. -/
theorem feed_cases (h : feed P d b = .ok (e, r)) :
    (d.st = .awaitingHeader ∧ b = P.rxHeader ∧ r = .notComplete ∧ e = { d with sum := b, st := .awaitingLength }) ∨
    (d.st = .awaitingHeader ∧ b ≠ P.rxHeader ∧ r = .notComplete ∧ e = d) ∨
    (d.st = .awaitingLength ∧ b.toNat < P.rxCap ∧ r = .notComplete ∧
      e = { d with
        sum := d.sum + b, len := b.toNat, cur := 0,
        st := if b = 0 then .awaitingChecksum else .receivingPayload }) ∨
    (d.st = .awaitingLength ∧ P.rxCap ≤ b.toNat ∧ r = .notComplete ∧
      e = { d with sum := d.sum + b, st := .awaitingHeader }) ∨
    (d.st = .receivingPayload ∧ d.cur < P.rxCap ∧ r = .notComplete ∧
      e = { d with
        sum := d.sum + b, buf := bufWrite d.buf d.cur b, cur := d.cur + 1,
        st := if d.cur + 1 = d.len then .awaitingChecksum else .receivingPayload }) ∨
    (d.st = .awaitingChecksum ∧ r = completionResult (d.sum + b) ∧
      e = { d with sum := d.sum + b, st := .awaitingHeader }) := by
  cases hst : d.st with
  | awaitingHeader =>
    by_cases hb : b = P.rxHeader
    · subst hb; rw [feed_header hst] at h; cases h; simp
    · rw [feed_skip hst hb] at h; cases h; simp [hb]
  | awaitingLength =>
    by_cases hb : b.toNat < P.rxCap
    · by_cases h0 : b = 0
      · subst h0; rw [feed_length_zero hst (Nat.succ_le_of_lt (by simpa using hb))] at h; cases h; simpa using hb
      · rw [feed_length hst hb h0] at h; cases h; simp only [hb, if_neg h0]; simp
    · rw [feed_length_rejected hst (Nat.not_lt.1 hb)] at h; cases h
      simp [Nat.not_lt.1 hb, hb]
  | receivingPayload =>
    by_cases hc : d.cur < P.rxCap
    · rw [feed_payload hst hc] at h; cases h; simp [hc]
    · simp [feed, hst, memWrite, hc] at h
  | awaitingChecksum => rw [feed_checksum hst] at h; cases h; simp

@[simp] theorem feeds_nil : feeds P d [] = .ok (d, []) := rfl

/-- Feeding one more byte in front. -/
theorem feeds_cons (h : feed P d b = .ok (e, r)) (bs : List Byte) :
    feeds P d (b :: bs) = (feeds P e bs).map (fun o => (o.1, r :: o.2)) := by
  simp only [feeds, h]
  cases feeds P e bs <;> rfl

/-- Feeding in two parts. -/
theorem feeds_append {v : List Byte} {rs : List Result} (h : feeds P d v = .ok (e, rs)) (w : List Byte) :
    feeds P d (v ++ w) = (feeds P e w).map (fun o => (o.1, rs ++ o.2)) := by
  induction v generalizing d rs with
  | nil => cases h; cases hw : feeds P e w <;> simp [hw, Except.map]
  | cons b v ih =>
    cases hb : feed P d b with
    | error f => simp [feeds, hb] at h
    | ok o =>
      obtain ⟨d₁, r⟩ := o
      rw [feeds_cons hb] at h
      rw [List.cons_append, feeds_cons hb]
      cases hv : feeds P d₁ v with
      | error f => simp [hv, Except.map] at h
      | ok o =>
        obtain ⟨d₂, rs₂⟩ := o
        rw [hv] at h
        cases h
        rw [ih hv]
        cases feeds P d₂ w <;> simp [Except.map]

theorem length_feeds {w : List Byte} {rs : List Result} (h : feeds P d w = .ok (e, rs)) : rs.length = w.length := by
  induction w generalizing d rs with
  | nil => cases h; rfl
  | cons b w ih =>
    cases hb : feed P d b with
    | error f => simp [feeds, hb] at h
    | ok o =>
      rw [feeds_cons (e := o.1) (r := o.2) hb] at h
      cases hw : feeds P o.1 w with
      | error f => simp [hw, Except.map] at h
      | ok o' => rw [hw] at h; cases h; simp [ih hw]

end

end Sys2Proof.Laws
end

