-- ==== Sys2Proof/Laws/Exec.lean ====
section
/-! SUPPORT. The shared operations the meanings are made of: what each can answer. -/

namespace Sys2Proof.Laws

open Sys2Proof.Machine

section
variable {i : Instr} {s t : State} {effect : Out}

theorem onRow_applies (hw : i.wf params = true) (hm : i.inMode s.dec.mode = true) : onRow i s effect = effect := by
  simp [onRow, hw, hm]

theorem onRow_refuses (h : i.wf params = false ∨ i.inMode s.dec.mode = false) :
    onRow i s effect = .refused .rowConditionFails := by
  rcases h with h | h <;> simp [onRow, h]

/-- If a guarded meaning answers a next state, its row applied and its effect is that state. -/
theorem onRow_next (h : onRow i s effect = .next t) :
    i.wf params = true ∧ i.inMode s.dec.mode = true ∧ effect = .next t := by
  by_cases hc : i.wf params = true ∧ i.inMode s.dec.mode = true
  · rw [onRow_applies hc.1 hc.2] at h; exact ⟨hc.1, hc.2, h⟩
  · rw [onRow_refuses (by
      rcases not_and_or.1 hc with h | h
      · exact .inl (by simpa using h)
      · exact .inr (by simpa using h))] at h
    cases h

/-- A guarded meaning faults only if its effect does. -/
theorem onRow_fault {f : Fault} (h : onRow i s effect = .fault f) : effect = .fault f := by
  unfold onRow at h
  split at h
  · exact h
  · cases h

/-- If a FEED answers a next state, the decoder's FEED succeeded, and only the decoder and the results changed. -/
theorem fedOutcome_next {x : Except Fault (Decoder × Result)} (h : fedOutcome s x = .next t) :
    ∃ d r, x = .ok (d, r) ∧ t = { s with dec := d, results := [r] } := by
  cases x with
  | error f => cases h
  | ok o => cases h; exact ⟨o.1, o.2, rfl, rfl⟩

theorem fedsOutcome_next {x : Except Fault (Decoder × List Result)} (h : fedsOutcome s x = .next t) :
    ∃ d rs, x = .ok (d, rs) ∧ t = { s with dec := d, results := rs } := by
  cases x with
  | error f => cases h
  | ok o => cases h; exact ⟨o.1, o.2, rfl, rfl⟩

theorem feedBytes_ok {bs : List Byte} {d : Decoder} {rs : List Result} (h : feeds params s.dec bs = .ok (d, rs)) :
    feedBytes bs s = .next { s with dec := d, results := rs } := by
  simp [feedBytes, fedsOutcome, h]

/-- If a payload store answers a next state, it wrote one cell inside the buffer. -/
theorem payloadStored_next {b : Byte} {g : Tag} (h : payloadStored s b g = .next t) :
    s.dec.cur < 16 ∧
    t = { s with
      dec := { s.dec with
        buf := bufWrite s.dec.buf s.dec.cur b, sum := s.dec.sum + b, cur := s.dec.cur + 1, st := g }
      results := [.notComplete] } := by
  unfold payloadStored at h
  by_cases hc : s.dec.cur < params.rxCap
  · rw [memWrite_ok b hc] at h; cases h; exact ⟨hc, rfl⟩
  · rw [memWrite_error b (Nat.not_lt.1 hc)] at h; cases h

theorem encoder_fits {P : Params} {p : List Byte} (h : p.length + 3 ≤ P.txCap) :
    encoder P p = .frame (frame P.txHeader p) := by
  simp [encoder, encoderAccepts, h]

theorem encoder_overflows {P : Params} {p : List Byte} (h : P.txCap < p.length + 3) : encoder P p = .overflow := by
  simp [encoder, encoderAccepts, Nat.not_le.2 h]

/-- If the encoder returns a frame, the payload fitted and the frame is the payload's. -/
theorem encoder_frame {P : Params} {p f : List Byte} (h : encoder P p = .frame f) :
    p.length + 3 ≤ P.txCap ∧ f = frame P.txHeader p := by
  by_cases hp : p.length + 3 ≤ P.txCap
  · rw [encoder_fits hp] at h; cases h; exact ⟨hp, rfl⟩
  · rw [encoder_overflows (Nat.not_le.1 hp)] at h; cases h

theorem fieldRead_ok {P : Params} {d : Decoder} {o : Nat} (h : o + 1 < P.rxCap) :
    fieldRead P d o = .ok (be16 (cell d o) (cell d (o + 1))) := by
  simp [fieldRead, memRead_ok h, memRead_ok (Nat.lt_of_succ_lt h)]

theorem echoRead_ok {P : Params} {d : Decoder} (h : 1 ≤ P.rxCap) : echoRead P d = .ok (cell d 0) := memRead_ok h

theorem fullRead_ok {P : Params} {d : Decoder} (h : 13 ≤ P.rxCap) :
    fullRead P d = .ok
      { pm2_5 := be16 (cell d 3) (cell d 4), pm1_0 := be16 (cell d 7) (cell d 8),
        pm10 := be16 (cell d 11) (cell d 12) } := by
  simp [fullRead, fieldRead_ok (P := P) (d := d) (o := 3) (by omega),
    fieldRead_ok (P := P) (d := d) (o := 7) (by omega), fieldRead_ok (P := P) (d := d) (o := 11) (by omega)]

theorem pm25Read_ok {P : Params} {d : Decoder} (h : 5 ≤ P.rxCap) :
    pm25Read P d = .ok (be16 (cell d 3) (cell d 4)) := fieldRead_ok (by omega)

/-- At this hardware's capacity the caller's conclusion always has an answer. -/
theorem conclude_ok (c : Command) (d : Decoder) : ∃ r, conclude params c d = .ok r := by
  unfold conclude
  rw [echoRead_ok (by decide)]
  by_cases h : cell d 0 = commandCode c
  · cases c with
    | fullMeasurement => rw [fullRead_ok (by decide)]; simp [h, Except.map]
    | pm25Only => rw [pm25Read_ok (by decide)]; simp [h, Except.map]
  · simp [h]

/-- If a read answers a next state, only the value the caller holds changed. -/
theorem viewed_next {x : Except Refusal ViewValue} (h : viewed s x = .next t) : ∃ v, t = { s with view := some v } := by
  cases x with
  | error e => cases h
  | ok v => cases h; exact ⟨v, rfl⟩

theorem exec_viewEcho : exec .viewEcho s = viewed s ((echoRead params s.dec).map .echo) := rfl

theorem exec_viewFullMeasurement : exec .viewFullMeasurement s = viewed s ((fullRead params s.dec).map .full) := rfl

theorem exec_viewPm25Only : exec .viewPm25Only s = viewed s ((pm25Read params s.dec).map .pm25) := rfl

theorem awaitValid_nil (P : Params) (d : Decoder) : awaitValid P d [] = .ok ⟨d, [], [], false⟩ := rfl

theorem awaitValid_valid {P : Params} {d e : Decoder} {b : Byte} (h : feed P d b = .ok (e, .valid)) (bs : List Byte) :
    awaitValid P d (b :: bs) = .ok ⟨e, [.valid], bs, true⟩ := by
  simp [awaitValid, h]

theorem awaitValid_other {P : Params} {d e : Decoder} {b : Byte} {r : Result} (h : feed P d b = .ok (e, r))
    (hr : r ≠ .valid) (bs : List Byte) :
    awaitValid P d (b :: bs) = (awaitValid P e bs).map (fun a => { a with results := r :: a.results }) := by
  simp only [awaitValid, h, if_neg hr]
  cases awaitValid P e bs <;> rfl

/-- Everything awaiting a response can do once the received bytes were fed: the report is the conclusion drawn from the
valid frame, or what the caller reports without one. -/
theorem awaitResponse_next {c : Command} {ifNone : Option Report} {a : Await}
    (h : awaitValid params s.dec s.line.rx = .ok a) :
    ∃ rep : Option Report,
      awaitResponse params c ifNone s = .next { s with
        dec := a.dec, results := a.results, line := { s.line with rx := a.unfed }, report := rep } ∧
      (a.gotFrame = true → ∃ r, conclude params c a.dec = .ok r ∧ rep = some r) ∧
      (a.gotFrame = false → rep = ifNone) := by
  cases hg : a.gotFrame with
  | true =>
    obtain ⟨r, hr⟩ := conclude_ok c a.dec
    exact ⟨some r, by simp [awaitResponse, h, hg, hr], fun _ => ⟨r, hr, rfl⟩, by simp⟩
  | false => exact ⟨ifNone, by simp [awaitResponse, h, hg], by simp, fun _ => rfl⟩

end

end Sys2Proof.Laws
end

