-- ==== Sys2Proof/Laws/PerInstr.lean ====
section
/-! SUPPORT. Per-instruction laws: the encoder gives each row's call the format the table gives the row (R58). -/

namespace Sys2Proof.Laws.EncodedFormat

/-- The call an instruction encodes to has its row's format, whatever the parameters. -/
def Statement (i : Instr) : Prop := ∀ P : Params, (encode P i).format = i.format

theorem hdrSync : Statement (.hdrSync) := fun _ => rfl

theorem hdrSkip (b : Byte) : Statement (.hdrSkip b) := fun _ => rfl

theorem lenZero : Statement (.lenZero) := fun _ => rfl

theorem lenAccept (n : Byte) : Statement (.lenAccept n) := fun _ => rfl

theorem lenReject (n : Byte) : Statement (.lenReject n) := fun _ => rfl

theorem payStore (b : Byte) : Statement (.payStore b) := fun _ => rfl

theorem payLast (b : Byte) : Statement (.payLast b) := fun _ => rfl

theorem chkValid (c : Byte) : Statement (.chkValid c) := fun _ => rfl

theorem chkInvalid (c : Byte) : Statement (.chkInvalid c) := fun _ => rfl

theorem feed (b : Byte) : Statement (.feed b) := fun _ => rfl

theorem encodeOk (p : List Byte) : Statement (.encodeOk p) := fun _ => rfl

theorem encodeOverflow (p : List Byte) : Statement (.encodeOverflow p) := fun _ => rfl

theorem frameResponse (n : Byte) (p : List Byte) (c : Byte) : Statement (.frameResponse n p c) := fun _ => rfl

theorem frameRequest (n : Byte) (p : List Byte) (c : Byte) : Statement (.frameRequest n p c) := fun _ => rfl

theorem cmdFullMeasurement : Statement (.cmdFullMeasurement) := fun _ => rfl

theorem cmdPm25Only : Statement (.cmdPm25Only) := fun _ => rfl

theorem rspFullMeasurement (r : FullPayload) : Statement (.rspFullMeasurement r) := fun _ => rfl

theorem rspPm25Only (r : Pm25Payload) : Statement (.rspPm25Only r) := fun _ => rfl

theorem viewEcho : Statement (.viewEcho) := fun _ => rfl

theorem viewFullMeasurement : Statement (.viewFullMeasurement) := fun _ => rfl

theorem viewPm25Only : Statement (.viewPm25Only) := fun _ => rfl

end Sys2Proof.Laws.EncodedFormat
end

