-- ==== Sys2Proof/Laws/Ports.lean ====
section
/-! SUPPORT. The encoder's ports: the operand they carry, and what the block makes of it. -/

namespace Sys2Proof.Laws

open Sys2Proof.Machine

section
variable {P : Params} {e e' : EncoderPorts P}

theorem encOk_iff : encOk e = true ↔ e.cmdLen.toNat + 3 ≤ P.txCap := by simp [encOk, encoderAccepts]

/-- When the encoder accepts the length, the operand has it: every entry it names is a port. -/
theorem length_portPayload (h : e.cmdLen.toNat + 3 ≤ P.txCap) : (portPayload e).length = e.cmdLen.toNat := by
  simp only [portPayload, List.length_take, Vector.length_toList]; omega

theorem getElem?_portPayload {i : Nat} (h : i < e.cmdLen.toNat) : (portPayload e)[i]? = e.cmdData[i]? := by
  simp [portPayload, List.getElem?_take_of_lt h]

/-- Entries at and above `cmd_len` are ignored. -/
theorem portPayload_congr (hl : e'.cmdLen = e.cmdLen)
    (hd : ∀ i, i < e.cmdLen.toNat → e'.cmdData[i]? = e.cmdData[i]?) : portPayload e' = portPayload e := by
  refine List.ext_getElem? fun i => ?_
  by_cases hi : i < e.cmdLen.toNat
  · rw [getElem?_portPayload (by rw [hl]; exact hi), getElem?_portPayload hi, hd i hi]
  · simp [portPayload, hl, hi]

theorem encodePorts_fits (h : e.cmdLen.toNat + 3 ≤ P.txCap) :
    encodePorts e = .frame (frame P.txHeader (portPayload e)) := by
  rw [encodePorts, if_pos (encOk_iff.2 h), encoder_fits (by rw [length_portPayload h]; exact h)]

theorem encodePorts_overflows (h : P.txCap < e.cmdLen.toNat + 3) : encodePorts e = .overflow := by
  rw [encodePorts, if_neg (by rw [encOk_iff]; omega)]

end

end Sys2Proof.Laws
end

