-- ==== Sys2Proof/Laws/Step.lean ====
section
/-! SUPPORT. The step, input by input. -/

namespace Sys2Proof.Laws

open Sys2Proof.Machine

section
variable {s : State}

theorem step_of_cons {i : Input} {rest : List Input} (h : s.inputs = i :: rest) :
    step s = issue i { s with inputs := rest } := by
  simp [step, stepInputs, h]

theorem issueCall_ok {c : Call} {i : Instr} (h : decode params s.dec.mode c = .ok i) : issueCall c s = exec i s := by
  simp [issueCall, h]

theorem issueCall_error {c : Call} {e : DecodeError} (h : decode params s.dec.mode c = .error e) :
    issueCall c s = receiveUndecoded c s := by
  simp [issueCall, h]

@[simp] theorem withFetchWord_inputs (nbits w : Nat) :
    (s.withFetchWord nbits w).inputs = .call (tableCall params nbits w) :: s.inputs := by
  simp only [State.withFetchWord, placeTableWord]
  split <;> next h => simp [h]

end

end Sys2Proof.Laws
end

