-- ==== Sys2Proof/Tests/Slice0.lean ====
section
/-! SUPPORT. Tests. Expected values come from spec/95_test_vectors.md, from the examples in the rules, or are worked by
hand from the rules cited. The `witness_` theorems meet the hypotheses of the statements of Obligations.lean. -/

namespace Sys2Proof.Tests

open Sys2Proof.Machine Sys2Proof.Laws

/-- A small state: a decoder with the given registers and the given written cells, nothing else happening. -/
def start (st : Tag) (sum : Byte) (len cur : Nat) (buf : Memory := []) : State :=
  { dec := ⟨st, sum, len, cur, buf, 0⟩, results := [], enc := none, view := none, line := ⟨[], []⟩, report := none,
    inputs := [] }

/-- What a test looks at after a byte: the spec's five items and the results. -/
structure Seen where
  st : Tag
  sum : Byte
  len : Nat
  cur : Nat
  buf : Memory
  results : List Result
  deriving DecidableEq

def seen : Out → Option Seen
  | .next t => some ⟨t.dec.st, t.dec.sum, t.dec.len, t.dec.cur, t.dec.buf, t.results⟩
  | .fault _ => none
  | .refused _ => none

def encSeen : Out → Option EncResult
  | .next t => t.enc
  | .fault _ => none
  | .refused _ => none

def viewSeen : Out → Option ViewValue
  | .next t => t.view
  | .fault _ => none
  | .refused _ => none

def reportSeen : Out → Option Report
  | .next t => t.report
  | .fault _ => none
  | .refused _ => none

def refusalSeen : Out → Option Refusal
  | .next _ => none
  | .fault _ => none
  | .refused r => some r

/-- The payload of V30 / S2, and the buffer that holds it. -/
def payloadV30 : List Byte := [0x02, 0, 0, 0, 0x96, 0, 0, 0, 0, 0, 0, 0, 0]

/-- The payload of V31. -/
def payloadV31 : List Byte := [0x02, 0x11, 0x22, 0x01, 0x2C, 0x33, 0x44, 0x00, 0xC8, 0x55, 0x66, 0xFF, 0xFF]

def bufOf (p : List Byte) : Memory := (List.range p.length).zip p

/-! ### Well-formedness refuses ill-formed terms (conditions of the opcode table, R46) -/

theorem test_wf_hdrSkip_header : Instr.wf params (.hdrSkip 0x16) = false := by decide
theorem test_wf_lenAccept_zero : Instr.wf params (.lenAccept 0) = false := by decide
theorem test_wf_lenAccept_capacity : Instr.wf params (.lenAccept 16) = false := by decide
theorem test_wf_lenReject_fits : Instr.wf params (.lenReject 15) = false := by decide
theorem test_wf_lenZero_no_capacity : Instr.wf { params with rxCap := 0 } .lenZero = false := by decide
theorem test_wf_encodeOk_too_long : Instr.wf params (.encodeOk (List.replicate 14 0)) = false := by decide
theorem test_wf_encodeOverflow_fits : Instr.wf params (.encodeOverflow (List.replicate 13 0)) = false := by decide
theorem test_wf_frameResponse_length : Instr.wf params (.frameResponse 2 [2] 0xE6) = false := by decide
theorem test_wf_frameResponse_checksum : Instr.wf params (.frameResponse 1 [2] 0xE6) = false := by decide
theorem test_wf_frameRequest_length : Instr.wf params (.frameRequest 0 [0xEE] 0x00) = false := by decide
theorem test_wf_frameRequest_checksum : Instr.wf params (.frameRequest 1 [0xEE] 0x01) = false := by decide
theorem test_wf_frameRequest_full : Instr.wf params (.frameRequest 1 [2] 0xEC) = false := by decide
theorem test_wf_frameRequest_pm25 : Instr.wf params (.frameRequest 2 [0x0B, 1] 0xE1) = false := by decide
theorem test_wf_rspFull_too_long (r : List Byte) (h : r.length = 243) :
    Instr.wf params (.rspFullMeasurement ⟨0, 0, 0, 0, 0, 0, 0, 0, 0, r⟩) = false := by
  simp [Instr.wf, fullPayloadBytes, h]
theorem test_wf_rspPm25_too_long (r : List Byte) (h : r.length = 251) :
    Instr.wf params (.rspPm25Only ⟨0, 0, 0, r⟩) = false := by
  simp [Instr.wf, pm25PayloadBytes, h]

/-! ### Decoding: every constructor, from a word written out from its encoding -/

theorem test_decode_hdrSync : decode params ⟨.awaitingHeader, 0, 0, 0⟩ (.rx 0b00010110) = .ok .hdrSync := by rfl
theorem test_decode_hdrSkip : decode params ⟨.awaitingHeader, 0, 0, 0⟩ (.rx 0b00010001) = .ok (.hdrSkip 0x11) := by rfl
theorem test_decode_lenZero : decode params ⟨.awaitingLength, 0x16, 0, 0⟩ (.rx 0b00000000) = .ok .lenZero := by rfl
theorem test_decode_lenAccept :
    decode params ⟨.awaitingLength, 0x16, 0, 0⟩ (.rx 0b00001111) = .ok (.lenAccept 15) := by rfl
theorem test_decode_lenReject_capacity :
    decode params ⟨.awaitingLength, 0x16, 0, 0⟩ (.rx 0b00010000) = .ok (.lenReject 16) := by rfl
theorem test_decode_lenReject_header :
    decode params ⟨.awaitingLength, 0x16, 0, 0⟩ (.rx 0b00010110) = .ok (.lenReject 0x16) := by rfl
theorem test_decode_payStore :
    decode params ⟨.receivingPayload, 0x1B, 5, 3⟩ (.rx 0b00010110) = .ok (.payStore 0x16) := by rfl
theorem test_decode_payLast :
    decode params ⟨.receivingPayload, 0x1B, 5, 4⟩ (.rx 0b00010110) = .ok (.payLast 0x16) := by rfl
theorem test_decode_chkValid :
    decode params ⟨.awaitingChecksum, 0xBB, 13, 13⟩ (.rx 0b01000101) = .ok (.chkValid 0x45) := by rfl
theorem test_decode_chkInvalid :
    decode params ⟨.awaitingChecksum, 0xBB, 13, 13⟩ (.rx 0b01000100) = .ok (.chkInvalid 0x44) := by rfl
theorem test_decode_feed : decode params ⟨.awaitingLength, 0, 0, 0⟩ (.feed 0xFF) = .ok (.feed 0xFF) := by rfl
theorem test_decode_encodeOk :
    decode params ⟨.awaitingHeader, 0, 0, 0⟩ (.encode (List.replicate 13 1)) = .ok (.encodeOk (List.replicate 13 1)) := by
  rfl
theorem test_decode_encodeOverflow :
    decode params ⟨.awaitingHeader, 0, 0, 0⟩ (.encode (List.replicate 14 1)) =
      .ok (.encodeOverflow (List.replicate 14 1)) := by rfl
theorem test_decode_frameResponse :
    decode params ⟨.awaitingHeader, 0, 0, 0⟩ (.frame [0b00010110, 0b00000000, 0b11101010]) =
      .ok (.frameResponse 0 [] 0xEA) := by rfl
theorem test_decode_frameRequest :
    decode params ⟨.awaitingHeader, 0, 0, 0⟩ (.frame [0b00010001, 0b00000001, 0b11101110, 0b00000000]) =
      .ok (.frameRequest 1 [0xEE] 0x00) := by rfl
theorem test_decode_cmdFullMeasurement :
    decode params ⟨.awaitingHeader, 0, 0, 0⟩ (.frame [0b00010001, 0b00000001, 0b00000010, 0b11101100]) =
      .ok .cmdFullMeasurement := by rfl
theorem test_decode_cmdPm25Only :
    decode params ⟨.awaitingHeader, 0, 0, 0⟩
      (.frame [0b00010001, 0b00000010, 0b00001011, 0b00000001, 0b11100001]) = .ok .cmdPm25Only := by rfl
theorem test_decode_rspFullMeasurement :
    decode params ⟨.awaitingHeader, 0, 0, 0⟩ (.payload payloadV31) =
      .ok (.rspFullMeasurement ⟨0x11, 0x22, 300, 0x33, 0x44, 200, 0x55, 0x66, 65535, []⟩) := by rfl
theorem test_decode_rspPm25Only :
    decode params ⟨.awaitingHeader, 0, 0, 0⟩ (.payload [0x0B, 0, 0, 0, 0x23]) =
      .ok (.rspPm25Only ⟨0, 0, 35, []⟩) := by rfl
theorem test_decode_viewEcho : decode params ⟨.awaitingHeader, 0, 0, 0⟩ (.view .echo) = .ok .viewEcho := by rfl
theorem test_decode_viewFull :
    decode params ⟨.awaitingHeader, 0, 0, 0⟩ (.view .fullMeasurement) = .ok .viewFullMeasurement := by rfl
theorem test_decode_viewPm25 :
    decode params ⟨.awaitingHeader, 0, 0, 0⟩ (.view .pm25Only) = .ok .viewPm25Only := by rfl

/-! Rejections by name. -/

theorem test_decode_frame_short : decode params ⟨.awaitingHeader, 0, 0, 0⟩ (.frame [0x16]) = .error .tooShort := by rfl
theorem test_decode_frame_length :
    decode params ⟨.awaitingHeader, 0, 0, 0⟩ (.frame [0x16, 0x01, 0xE9]) = .error .wrongLength := by rfl
theorem test_decode_frame_checksum :
    decode params ⟨.awaitingHeader, 0, 0, 0⟩ (.frame [0x16, 0x01, 0x02, 0xE6]) = .error .badChecksum := by rfl
theorem test_decode_frame_header :
    decode params ⟨.awaitingHeader, 0, 0, 0⟩ (.frame [0x17, 0x00, 0xE9]) = .error .badHeader := by rfl
theorem test_decode_payload_unknown :
    decode params ⟨.awaitingHeader, 0, 0, 0⟩ (.payload [0x03, 0, 0]) = .error .unknownEcho := by rfl
theorem test_decode_payload_short :
    decode params ⟨.awaitingHeader, 0, 0, 0⟩ (.payload [0x0B, 0, 0, 0]) = .error .shortPayload := by rfl
theorem test_decode_payload_long (r : List Byte) (h : r.length = 255) :
    decode params ⟨.awaitingHeader, 0, 0, 0⟩ (.payload (2 :: r)) = .error .longPayload := by
  simp [decode, decodePayload, h]

/-! The opcode table's own words (its rows' `match`). -/

theorem test_table_hdrSync : decodeTableWord 8 0x16 = some .hdrSync := by decide
theorem test_table_lenZero : decodeTableWord 8 0x00 = some .lenZero := by decide
theorem test_table_lenAccept : decodeTableWord 8 0x0D = some (.lenAccept 13) := by decide
theorem test_table_hdrSkip : decodeTableWord 8 0x11 = some (.hdrSkip 0x11) := by decide
theorem test_table_cmdFull : decodeTableWord 32 0x110102EC = some .cmdFullMeasurement := by decide
theorem test_table_cmdPm25 : decodeTableWord 40 0x11020B01E1 = some .cmdPm25Only := by decide
theorem test_table_step_hdrSync :
    (seen (step (State.reset.withFetchWord 8 0x16))).map (fun x => (x.st, x.sum)) = some (.awaitingLength, 0x16) := by
  decide
theorem test_table_step_lenZero :
    (seen (step (State.reset.withFetchWord 8 0x00))).map (fun x => x.st) = some .awaitingChecksum := by decide
theorem test_table_step_cmdFull :
    encSeen (step (State.reset.withFetchWord 32 0x110102EC)) = some (.frame [0x11, 0x01, 0x02, 0xEC]) := by decide

/-! ### The byte classes: the examples of R62 to R70 -/

theorem test_hdrSync : seen (exec .hdrSync (start .awaitingHeader 0x5A 3 3)) =
    some ⟨.awaitingLength, 0x16, 3, 3, [], [.notComplete]⟩ := by decide
theorem test_hdrSkip : seen (exec (.hdrSkip 0x11) (start .awaitingHeader 0x5A 3 3)) =
    some ⟨.awaitingHeader, 0x5A, 3, 3, [], [.notComplete]⟩ := by decide
theorem test_lenAccept : seen (exec (.lenAccept 0x0D) (start .awaitingLength 0x16 9 9)) =
    some ⟨.receivingPayload, 0x23, 13, 0, [], [.notComplete]⟩ := by decide
theorem test_lenZero : seen (exec .lenZero (start .awaitingLength 0x16 13 13)) =
    some ⟨.awaitingChecksum, 0x16, 0, 0, [], [.notComplete]⟩ := by decide
theorem test_lenReject : seen (exec (.lenReject 0x10) (start .awaitingLength 0x16 5 5)) =
    some ⟨.awaitingHeader, 0x26, 5, 5, [], [.notComplete]⟩ := by decide
/-- V7: the sum wraps. -/
theorem test_lenReject_wraps : seen (exec (.lenReject 0xFF) (start .awaitingLength 0x16 5 5)) =
    some ⟨.awaitingHeader, 0x15, 5, 5, [], [.notComplete]⟩ := by decide
/-- V18. -/
theorem test_payStore : seen (exec (.payStore 0xAA) (start .receivingPayload 0x1B 5 0)) =
    some ⟨.receivingPayload, 0xC5, 5, 1, [(0, 0xAA)], [.notComplete]⟩ := by decide
/-- R68's example, over an older byte of the cell. -/
theorem test_payLast :
    seen (exec (.payLast 0x00) (start .receivingPayload 0xBB 13 12 [(3, 7), (12, 0x55)])) =
      some ⟨.awaitingChecksum, 0xBB, 13, 13, [(3, 7), (12, 0)], [.notComplete]⟩ := by decide
theorem test_chkValid : seen (exec (.chkValid 0x45) (start .awaitingChecksum 0xBB 13 13)) =
    some ⟨.awaitingHeader, 0x00, 13, 13, [], [.valid]⟩ := by decide
/-- V15. -/
theorem test_chkInvalid : seen (exec (.chkInvalid 0x44) (start .awaitingChecksum 0xBB 13 13)) =
    some ⟨.awaitingHeader, 0xFF, 13, 13, [], [.invalid]⟩ := by decide
/-- V16: a header byte where a checksum is expected is the checksum. -/
theorem test_feed_header_as_checksum : seen (exec (.feed 0x16) (start .awaitingChecksum 0x16 0 0)) =
    some ⟨.awaitingHeader, 0x2C, 0, 0, [], [.invalid]⟩ := by decide
/-- V8, second byte: a header value is no header in AwaitingLength. -/
theorem test_feed_header_as_length : seen (exec (.feed 0x16) (start .awaitingLength 0x16 4 4)) =
    some ⟨.awaitingHeader, 0x2C, 4, 4, [], [.notComplete]⟩ := by decide
theorem test_row_in_wrong_state :
    refusalSeen (exec .hdrSync (start .awaitingLength 0x16 0 0)) = some .rowConditionFails := by decide

/-! ### Encoder: S1, V22, V24 to V27 -/

theorem test_encode_S1 : encSeen (exec (.encodeOk [0x02]) (start .awaitingHeader 0 0 0)) =
    some (.frame [0x11, 0x01, 0x02, 0xEC]) := by decide
theorem test_encode_empty : encSeen (exec (.encodeOk []) (start .awaitingHeader 0 0 0)) =
    some (.frame [0x11, 0x00, 0xEF]) := by decide
theorem test_encode_overflow : encSeen (exec (.encodeOverflow (List.replicate 14 7)) (start .awaitingHeader 0 0 0)) =
    some .overflow := by decide
theorem test_frameRequest_V25 : encSeen (exec (.frameRequest 1 [0xEE] 0x00) (start .awaitingHeader 0 0 0)) =
    some (.frame [0x11, 0x01, 0xEE, 0x00]) := by decide
theorem test_cmdFull : encSeen (exec .cmdFullMeasurement (start .awaitingHeader 0 0 0)) =
    some (.frame [0x11, 0x01, 0x02, 0xEC]) := by decide
theorem test_cmdPm25 : encSeen (exec .cmdPm25Only (start .awaitingHeader 0 0 0)) =
    some (.frame [0x11, 0x02, 0x0B, 0x01, 0xE1]) := by decide

/-! ### Frames, responses, views: V2, V17 (frame), V30 to V33 -/

theorem test_frameResponse_V2 : seen (exec (.frameResponse 1 [0x02] 0xE7) (start .awaitingHeader 0x5A 3 3)) =
    some ⟨.awaitingHeader, 0x00, 1, 1, [(0, 0x02)], [.notComplete, .notComplete, .notComplete, .valid]⟩ := by decide
theorem test_rspFull_V31 :
    reportSeen (exec (.rspFullMeasurement ⟨0x11, 0x22, 300, 0x33, 0x44, 200, 0x55, 0x66, 65535, []⟩)
      (start .awaitingHeader 0 0 0)) = some (.full { pm2_5 := 300, pm1_0 := 200, pm10 := 65535 }) := by decide
theorem test_rspPm25_V32 :
    reportSeen (exec (.rspPm25Only ⟨0, 0, 35, []⟩) (start .awaitingHeader 0 0 0)) = some (.pm25 35) := by decide
theorem test_viewEcho_V30 :
    viewSeen (exec .viewEcho (start .awaitingHeader 0 13 13 (bufOf payloadV30))) = some (.echo 0x02) := by decide
theorem test_viewFull_V30 :
    viewSeen (exec .viewFullMeasurement (start .awaitingHeader 0 13 13 (bufOf payloadV30))) =
      some (.full { pm2_5 := 150, pm1_0 := 0, pm10 := 0 }) := by decide
theorem test_viewFull_V31 :
    viewSeen (exec .viewFullMeasurement (start .awaitingHeader 0 13 13 (bufOf payloadV31))) =
      some (.full { pm2_5 := 300, pm1_0 := 200, pm10 := 65535 }) := by decide
theorem test_viewPm25_V32 :
    viewSeen (exec .viewPm25Only (start .awaitingHeader 0 5 5 (bufOf [0x0B, 0, 0, 0, 0x23]))) = some (.pm25 35) := by decide
/-- V33: the answer to the other command is a mismatch. -/
theorem test_request_mismatch_V33 :
    reportSeen (step { start .awaitingHeader 0 0 0 with
      line := ⟨[0x16, 0x05, 0x0B, 0x00, 0x00, 0x00, 0x23, 0xB7], []⟩, inputs := [.request .fullMeasurement] }) =
      some (.failed .cmdMismatch) := by decide
/-- S3. -/
theorem test_request_timeout_S3 :
    reportSeen (step { start .awaitingHeader 0 0 0 with inputs := [.request .pm25Only] }) = some (.failed .timeout) := by
  decide
/-- R134: reset wins over a byte. -/
theorem test_clock_reset_wins :
    (seen (step { start .awaitingLength 0x16 5 5 with inputs := [.clock true true 0x05] })).map (fun x => x.st) =
      some .awaitingHeader := by decide
theorem test_read_outside :
    refusalSeen (step { start .awaitingHeader 0 0 0 with inputs := [.readPayload 16] }) = some .readOutsideBuffer := by
  decide

/-- V15's frame handed over as a frame although its checksum is wrong: its bytes are fed and the last one is INVALID. -/
theorem test_bad_frame_is_fed :
    (seen (step { start .awaitingHeader 0 0 0 with inputs := [.call (.frame [0x16, 0x01, 0x02, 0xE6])] })).map
      (fun x => (x.st, x.len, x.buf, x.results)) =
      some (.awaitingHeader, 1, [(0, 2)], [.notComplete, .notComplete, .notComplete, .invalid]) := by decide
/-- R50: a payload of an unknown command is carried like any other; R96: one too short for its view still concludes,
reading here a stale byte 0x07 in cell 4. -/
theorem test_unknown_payload_is_carried :
    (seen (step { start .awaitingHeader 0 0 0 with inputs := [.call (.payload [0x03])] })).map
      (fun x => (x.len, x.buf, x.results)) =
      some (1, [(0, 3)], [.notComplete, .notComplete, .notComplete, .valid]) := by decide
theorem test_short_payload_concludes :
    reportSeen (step { start .awaitingHeader 0 0 0 [(4, 7)] with inputs := [.call (.payload [0x0B, 0, 0, 1])] }) =
      some (.pm25 0x0107) := by decide
/-- R135: S1 on the ports, with the entries above `cmd_len` ignored; refused at 14. -/
theorem test_encoderPorts_S1 :
    encSeen (step { start .awaitingHeader 0 0 0 with
      inputs := [.encoderPorts ⟨1, #v[2, 9, 9, 9, 9, 9, 9, 9, 9, 9, 9, 9, 9]⟩] }) =
      some (.frame [0x11, 0x01, 0x02, 0xEC]) := by decide
theorem test_encoderPorts_overflow :
    frameLen (P := params) ⟨14, #v[2, 9, 9, 9, 9, 9, 9, 9, 9, 9, 9, 9, 9]⟩ = 0 := by decide

/-! R12, R21: the encodings of the tag and of the result. -/

theorem test_codes : tagCode .awaitingChecksum = 0b11 ∧ tagCode .awaitingLength = 0b01 ∧
    resultCode .valid = 0b01 ∧ resultCode .invalid = 0b10 ∧ frameValid .invalid = false := by decide

/-! ### Witnesses: every hypothesis of a statement can be met -/

/-- A sound state in each tag. -/
theorem witness_inv_header : (start .awaitingHeader 0 0 0).Inv := by
  constructor <;> simp [start, Memory.wf]
theorem witness_inv_length : (start .awaitingLength 0x16 5 5).Inv := by
  constructor <;> simp [start, Memory.wf]
theorem witness_inv_payload : (start .receivingPayload 0x25 15 0).Inv := by
  constructor <;> simp [start, Memory.wf, cells, lengthByte]
theorem witness_inv_checksum : (start .awaitingChecksum 0x16 0 0).Inv := by
  constructor <;> simp [start, Memory.wf, cells, lengthByte]

/-- HdrSyncStartsTheAccumulator; HdrSkipWritesNothing. -/
theorem witness_header : (start .awaitingHeader 0x5A 3 3).dec.st = .awaitingHeader ∧ (0x11 : Byte) ≠ 0x16 := by decide
/-- LenAcceptOpensThePayload, at both ends of its range; LenZeroSkipsThePayload; LenRejectAborts, at its first value. -/
theorem witness_length : (start .awaitingLength 0x16 0 0).dec.st = .awaitingLength ∧
    (1 ≤ (1 : Byte).toNat ∧ (1 : Byte).toNat < 16) ∧ (1 ≤ (15 : Byte).toNat ∧ (15 : Byte).toNat < 16) ∧
    (start .awaitingLength 0x16 0 0).dec.sum = 0x16 ∧ 16 ≤ (16 : Byte).toNat := by decide
/-- PayStoreStoresAtTheCursor; PayLastClosesThePayload; StoresOutsideTheBufferFault. -/
theorem witness_payload : (start .receivingPayload 0x25 15 13).dec.st = .receivingPayload ∧
    (13 + 1 < (start .receivingPayload 0x25 15 13).dec.len ∧ (start .receivingPayload 0x25 15 13).dec.len < 16) ∧
    14 + 1 = (start .receivingPayload 0x25 15 14).dec.len ∧ 16 ≤ (start .receivingPayload 0 20 16).dec.cur := by decide
/-- ChkValidCompletesTheFrame; ChkInvalidDiscardsTheFrame. -/
theorem witness_checksum : (start .awaitingChecksum 0xBB 13 13).dec.st = .awaitingChecksum ∧
    (0xBB : Byte) + 0x45 = 0 ∧ (0xBB : Byte) + 0x44 ≠ 0 := by decide
/-- FeedCompletesForEveryByte, NoInstructionFaultsFromASoundState, StepKeepsTheInvariant: a sound state that steps. -/
theorem witness_sound_step : (start .awaitingHeader 0 0 0).Inv ∧
    step (start .awaitingHeader 0 0 0) = .next (start .awaitingHeader 0 0 0) := ⟨witness_inv_header, rfl⟩
/-- FeedUpdatesEachRegister, OnlyChecksumStepsComplete (both clauses), OnlyCompletionOrAbortReturnsToHeader. -/
theorem witness_feed_next : (∃ t, exec (.feed 0x44) (start .awaitingChecksum 0xBB 13 13) = .next t) ∧
    (∃ t, exec (.feed 0x10) (start .awaitingLength 0x16 5 5) = .next t) := ⟨⟨_, rfl⟩, ⟨_, rfl⟩⟩
/-- PayloadStoreTouchesOneCell. -/
theorem witness_store_next : (∃ t, exec (.payStore 1) (start .receivingPayload 0x25 15 13) = .next t) ∧
    (∃ t, exec (.payLast 1) (start .receivingPayload 0x25 15 14) = .next t) := ⟨⟨_, rfl⟩, ⟨_, rfl⟩⟩
/-- OnlyPayloadBytesWriteTheBuffer, one row of each clause. -/
theorem witness_nonstoring_next : (∃ t, exec .lenZero (start .awaitingLength 0x16 5 5) = .next t) ∧
    (∃ t, exec .viewEcho (start .awaitingHeader 0 0 0) = .next t) := ⟨⟨_, rfl⟩, ⟨_, rfl⟩⟩
/-- RowsThatDoNotApplyAreRefused, both clauses. -/
theorem witness_row_off : Instr.wf params (.hdrSkip 0x16) = false ∧
    Instr.inMode (start .awaitingLength 0x16 0 0).dec.mode .hdrSync = false := by decide
/-- ErrorsLeaveThePreciseState, each clause from a sound state. -/
theorem witness_errors : (∃ t, exec (.lenReject 16) (start .awaitingLength 0x16 5 5) = .next t) ∧
    (∃ t, exec (.chkInvalid 0) (start .awaitingChecksum 0x16 0 0) = .next t) ∧
    (∃ t, exec (.encodeOverflow (List.replicate 14 0)) (start .awaitingHeader 0 0 0) = .next t) :=
  ⟨⟨_, rfl⟩, ⟨_, rfl⟩, ⟨_, rfl⟩⟩
/-- ReachableDecodersAreSound; FramesAreAcceptedOrRejectedByTheirSum at its longest payload; HeaderFreeBytesChangeNothing;
NoBytesWritePastTheBuffer; RoundTripHoldsForTheFormat. -/
theorem witness_laws : params.Legal ∧ (start .awaitingHeader 0 0 0).dec.st = .awaitingHeader ∧
    (List.replicate 15 (0 : Byte)).length < params.rxCap ∧ (∀ b ∈ [(0x11 : Byte), 0x01], b ≠ params.rxHeader) ∧
    params.rxCap ≤ (16 : Byte).toNat ∧ encoder params [2] = .frame [0x11, 1, 2, 0xEC] ∧
    (∀ b ∈ [(0x11 : Byte), 1, 2, 0xEC], b ≠ params.rxHeader) := by decide
/-- SingleBitErrorsAreSeen (a): V10, and V11 for the checksum byte. -/
theorem witness_single_bit :
    sum8 ([params.rxHeader, lengthByte [(2 : Byte)].length] ++ [2] ++ [0xE7]) = 0 ∧
    [(3 : Byte)] ++ [0xE7] = ([(2 : Byte)] ++ [0xE7]).modify 0 (fun b => b ^^^ BitVec.ofNat 8 (2 ^ 0)) ∧
    [(2 : Byte)] ++ [0xE5] = ([(2 : Byte)] ++ [0xE7]).modify 1 (fun b => b ^^^ BitVec.ofNat 8 (2 ^ 1)) := by decide
/-- DeadFieldsDecideNothing: a last result VALID, and two different decoders in AwaitingHeader. -/
theorem witness_dead : (∃ e, feeds params (start .awaitingHeader 0x5A 3 3).dec [0x16, 0, 0xEA] =
      .ok (e, [.notComplete, .notComplete, .valid])) ∧
    (start .awaitingHeader 0 7 2).dec.st = .awaitingHeader := ⟨⟨_, rfl⟩, rfl⟩
/-- LeftoverAttemptSwallowsBytes: P3's second exchange, `remaining = 3`. -/
theorem witness_leftover : (start .receivingPayload 0x1E 5 2).dec.cur < (start .receivingPayload 0x1E 5 2).dec.len ∧
    (start .receivingPayload 0x1E 5 2).dec.len < params.rxCap ∧
    [(0x16 : Byte), 0x05, 0x0B, 0x00].length = 5 - 2 + 1 := by decide
/-- ReorderedPayloadStaysValid: V17 beside S2, shortened. -/
theorem witness_reorder : [(0x00 : Byte), 0x96].Perm [0x96, 0x00] ∧
    sum8 ([params.rxHeader, lengthByte [(0x00 : Byte), 0x96].length] ++ [0x00, 0x96] ++ [0x52]) = 0 := by decide
/-- EncodeReturnsTheFrame, EncodeRefusesOversizedPayloads at their last and first length; EncodedFramesSumToZero,
EncodedLengthByteIsTrue. -/
theorem witness_encode : (List.replicate 13 (0 : Byte)).length + 3 ≤ 16 ∧ 16 < (List.replicate 14 (0 : Byte)).length + 3 ∧
    encoder params [0x0B, 1] = .frame [0x11, 2, 0x0B, 1, 0xE1] := by decide
/-- ResponseFrameIsReceived, both clauses, RequestFrameIsProduced on both sides of its bound. -/
theorem witness_frames : Instr.wf params (.frameResponse 1 [2] 0xE7) = true ∧ (1 : Byte).toNat < 16 ∧
    Instr.wf params (.frameResponse 16 (List.replicate 16 0) 0xDA) = true ∧
    Instr.wf params (.frameRequest 13 (List.replicate 13 0) 0xE2) = true ∧
    Instr.wf params (.frameRequest 14 (List.replicate 14 0) 0xE1) = true := by decide
/-- FullResponseIsReported at its shortest and longest, Pm25ResponseIsReported, ResponsesCompleteFromSoundStates. -/
theorem witness_responses :
    (fullPayloadBytes ⟨0, 0, 150, 0, 0, 0, 0, 0, 0, []⟩).length = 13 ∧
    (fullPayloadBytes ⟨0, 0, 150, 0, 0, 0, 0, 0, 0, [1, 2]⟩).length < 16 ∧
    (pm25PayloadBytes ⟨0, 0, 35, []⟩).length < 16 ∧ (start .awaitingHeader 0 0 0).line.rx = [] ∧
    Instr.wf params (.rspFullMeasurement ⟨0, 0, 150, 0, 0, 0, 0, 0, 0, [1, 2, 3]⟩) = true ∧
    Instr.wf params (.rspPm25Only ⟨0, 0, 35, []⟩) = true := by decide
/-- AwaitingFeedsUpToTheFirstValid, both clauses: V1 and its first two bytes. -/
theorem witness_await :
    (∃ d, awaitValid params (start .awaitingHeader 0 0 0).dec [0x16, 0, 0xEA, 7] =
      .ok ⟨d, [.notComplete, .notComplete, .valid], [7], true⟩) ∧
    (∃ d, awaitValid params (start .awaitingHeader 0 0 0).dec [0x16, 0] =
      .ok ⟨d, [.notComplete, .notComplete], [], false⟩) := ⟨⟨_, rfl⟩, ⟨_, rfl⟩⟩
/-- PayloadReadsAreBounded at both boundary indices; SilentLineTimesOut; NothingHappensWithoutInput;
ClockCyclesResetOrFeed; StepRunsTheDecodedInstruction, both clauses. -/
theorem witness_inputs :
    ({ start .awaitingHeader 0 0 0 with inputs := [.readPayload 15] } : State).inputs = [.readPayload 15] ∧ 15 < 16 ∧
    ({ start .awaitingHeader 0 0 0 with inputs := [.readPayload 16] } : State).inputs = [.readPayload 16] ∧ 16 ≤ 16 ∧
    ({ start .awaitingHeader 0 0 0 with inputs := [.request .pm25Only] } : State).inputs = .request .pm25Only :: [] ∧
    (start .awaitingHeader 0 0 0).inputs = [] ∧
    ({ start .awaitingHeader 0 0 0 with inputs := [.clock false false 3] } : State).inputs = .clock false false 3 :: [] ∧
    ({ start .awaitingHeader 0 0 0 with inputs := [.clock true true 3] } : State).inputs = .clock true true 3 :: [] ∧
    ({ start .awaitingHeader 0 0 0 with inputs := [.call (.rx 0x16)] } : State).inputs = .call (.rx 0x16) :: [] := by decide
/-- StepRunsTheDecodedInstruction's decoding clauses. -/
theorem witness_decoding : decode params (start .awaitingHeader 0 0 0).dec.mode (.rx 0x16) = .ok .hdrSync ∧
    decode params (start .awaitingHeader 0 0 0).dec.mode (.frame []) = .error .tooShort ∧
    decode params (start .awaitingHeader 0 0 0).dec.mode (.payload [0x0B]) = .error .shortPayload ∧
    [(0x0B : Byte)].head? = some (commandCode .pm25Only) ∧
    decode params (start .awaitingHeader 0 0 0).dec.mode (.payload [3]) = .error .unknownEcho ∧
    (∀ k, [(3 : Byte)].head? ≠ some (commandCode k)) := ⟨rfl, rfl, rfl, rfl, rfl, fun k => by cases k <;> decide⟩
/-- Its clause for strings longer than any payload: 256 bytes. -/
theorem witness_long_payload : decode params (start .awaitingHeader 0 0 0).dec.mode
      (.payload (2 :: List.replicate 255 0)) = .error .longPayload ∧
    255 < ((2 : Byte) :: List.replicate 255 0).length := by
  have h : (List.replicate 255 (0 : Byte)).length = 255 := List.length_replicate
  exact ⟨test_decode_payload_long _ h, by rw [List.length_cons, h]; omega⟩
/-- A caller about to make request `c`, with `bytes` already received. -/
def requesting (c : Command) (bytes : List Byte) : State :=
  { start .awaitingHeader 0 0 0 with line := ⟨bytes, []⟩, inputs := [.request c] }
/-- FirstValidFrameDecidesTheRequest: one state that meets every hypothesis, with garbage before the frame and a byte
after it; the payloads of its three report clauses, and the empty payload. -/
theorem witness_request :
    (requesting .fullMeasurement ([0x00, 0xFF] ++ frame 0x16 payloadV30 ++ [7])).inputs = [.request .fullMeasurement] ∧
    (requesting .fullMeasurement ([0x00, 0xFF] ++ frame 0x16 payloadV30 ++ [7])).dec.st = .awaitingHeader ∧
    (∀ b ∈ [(0x00 : Byte), 0xFF], b ≠ 0x16) ∧ payloadV30.length < 16 ∧
    (requesting .fullMeasurement ([0x00, 0xFF] ++ frame 0x16 payloadV30 ++ [7])).line.rx =
      [0x00, 0xFF] ++ frame 0x16 payloadV30 ++ [7] ∧
    payloadV30.head? = some (commandCode .fullMeasurement) ∧ 13 ≤ payloadV30.length ∧
    ([0x0B, 0, 0, 0, 0x23] : List Byte).head? ≠ some (commandCode .fullMeasurement) ∧
    ([0x0B, 0, 0, 0, 0x23] : List Byte).head? = some (commandCode .pm25Only) ∧ ([] : List Byte).length < 16 := by decide
/-- SilentLineTimesOut: a silent line, and received bytes among which no frame is VALID (V15). -/
theorem witness_timeout :
    (requesting .pm25Only []).line.rx = [] ∧
    (∃ a, awaitValid params (requesting .fullMeasurement [0x16, 0x01, 0x02, 0xE6]).dec
        (requesting .fullMeasurement [0x16, 0x01, 0x02, 0xE6]).line.rx = .ok a ∧ a.gotFrame = false) :=
  ⟨rfl, ⟨_, rfl, rfl⟩⟩
/-- ResponsesCompleteFromSoundStates: a stale PM2.5 frame before a full-measurement response, and no valid frame. -/
theorem witness_stale :
    (∃ a, awaitValid params (start .awaitingHeader 0 0 0).dec
      (frame 0x16 [0x0B, 0, 0, 0, 0x23] ++ frame 0x16 payloadV30) = .ok a ∧ a.gotFrame = true ∧
      cell a.dec 0 ≠ commandCode .fullMeasurement) ∧
    (∃ a, awaitValid params (start .receivingPayload 0x25 15 0).dec (frame 0x16 [0x0B, 0, 0, 0, 0x23]) = .ok a ∧
      a.gotFrame = false) :=
  ⟨⟨_, rfl, rfl, by decide⟩, ⟨_, rfl, rfl⟩⟩
/-- EncoderPortsShowTheFrame: both sides of the bound, and two port values that differ above `cmd_len` only. -/
theorem witness_ports :
    (13 : Byte).toNat + 3 ≤ params.txCap ∧ ¬ (14 : Byte).toNat + 3 ≤ params.txCap ∧
    (∀ i, i < (2 : Byte).toNat → (#v[(0x0B : Byte), 1, 5])[i]? = (#v[(0x0B : Byte), 1, 6])[i]?) := by decide
/-- PlacedTableWordsRun; WrittenWordsDecode. -/
theorem witness_table : decodeTableWord 8 0x16 = some .hdrSync ∧
    (⟨.awaitingHeader, 0, 0, 0⟩ : Mode).st = .awaitingHeader ∧ (⟨.awaitingLength, 0, 0, 0⟩ : Mode).st = .awaitingLength := by
  decide
/-- DecodeOfEncodeIsTheInstruction; EncodeOfDecodeIsTheCall. -/
theorem witness_round_trip : Instr.wf params (.lenAccept 15) = true ∧
    Instr.inMode ⟨.awaitingLength, 0x16, 0, 0⟩ (.lenAccept 15) = true ∧
    Instr.wf params (.frameRequest 1 [0xEE] 0) = true ∧ Instr.inMode ⟨.awaitingLength, 0x16, 0, 0⟩ (.frameRequest 1 [0xEE] 0) = true := by
  decide

end Sys2Proof.Tests
end

section
/-! PROOFS. The decoder's state: one FEED and many FEEDs keep the invariant of R19 and R20, no input does more to the
decoder than reset it or feed it bytes, and what the fields hold outside a frame attempt decides nothing (R24). -/

namespace Sys2Proof.Proofs

open Sys2Proof.Machine Sys2Proof.Laws

section
variable {P : Params} {d e f : Decoder} {b : Byte} {r : Result} {w : List Byte} {rs : List Result}

/-! ### FEED and FEEDS -/

/-- LEN.ZERO and LEN.ACCEPT in one: the tag after the length byte says whether a payload follows. -/
theorem feed_length_accepted (h : d.st = .awaitingLength) (hb : b.toNat < P.rxCap) :
    feed P d b = .ok ({ d with
      sum := d.sum + b, len := b.toNat, cur := 0,
      st := if b = 0 then .awaitingChecksum else .receivingPayload }, .notComplete) := by
  by_cases h0 : b = 0
  · subst h0
    rw [feed_length_zero h (Nat.succ_le_of_lt (by simpa using hb))]
    simp
  · rw [feed_length h hb h0, if_neg h0]

/-- If feeding a nonempty string succeeds, its first FEED did, and so did feeding the rest. -/
theorem feeds_cons_ok (h : feeds P d (b :: w) = .ok (f, rs)) :
    ∃ e r rs', feed P d b = .ok (e, r) ∧ feeds P e w = .ok (f, rs') ∧ rs = r :: rs' := by
  cases hb : feed P d b with
  | error x => simp [feeds, hb] at h
  | ok o =>
    obtain ⟨e, r⟩ := o
    rw [feeds_cons hb] at h
    cases hw : feeds P e w with
    | error x => simp [hw, Except.map] at h
    | ok o =>
      rw [hw] at h
      cases h
      exact ⟨e, r, o.2, rfl, hw, rfl⟩

/-- Feeding one more byte behind. -/
theorem feeds_concat (hw : feeds P d w = .ok (e, rs)) (hb : feed P e b = .ok (f, r)) :
    feeds P d (w ++ [b]) = .ok (f, rs ++ [r]) := by
  rw [feeds_append hw, feeds_cons hb]; rfl

theorem feeds_singleton (h : feed P d b = .ok (e, r)) : feeds P d [b] = .ok (e, [r]) :=
  feeds_concat feeds_nil h

/-- What the payload cells show after `b` was stored at the cursor, whatever happened to the registers. -/
theorem cells_after_store (d : Decoder) (v b : Byte) (c : Nat) (g : Tag) :
    cells { d with sum := v, buf := bufWrite d.buf d.cur b, cur := c, st := g } (d.cur + 1) =
      cells d d.cur ++ [b] := by
  rw [cells_succ]
  congr 1
  · exact cells_congr fun i hi => by simp [cell, bufRead_bufWrite_other d.buf b (Nat.ne_of_lt hi)]
  · rw [cell_of_bufRead (bufRead_bufWrite_same d.buf d.cur b)]

/-! ### The invariant of R19 and R20 -/

/-- A decoder just reset is sound: its registers are bytes, and nothing has been written (R23). -/
theorem inv_afterReset (P : Params) (n : Nat) : (Decoder.afterReset n).Inv P where
  lenWidth := (Config.resetLen n).isLt
  curWidth := (Config.resetCur n).isLt
  receiving h := by simp at h
  checksum h := by simp at h
  lengthSum h := by simp at h
  payloadSum h := by simp at h
  bufWf := wf_nil
  bufBound _ _ := rfl

/-- Before the payload only the accumulator's start is asked for: giving an attempt up keeps the invariant with any sum,
and a header byte starts one. -/
theorem inv_before_payload {g : Tag} {v : Byte} (hd : d.Inv P)
    (hg : g = .awaitingHeader ∨ g = .awaitingLength ∧ v = P.rxHeader) :
    Decoder.Inv P { d with sum := v, st := g } where
  lenWidth := hd.lenWidth
  curWidth := hd.curWidth
  receiving := by rcases hg with rfl | ⟨rfl, -⟩ <;> nofun
  checksum := by rcases hg with rfl | ⟨rfl, -⟩ <;> nofun
  lengthSum := by
    rcases hg with rfl | ⟨-, hv⟩
    · nofun
    · exact fun _ => hv
  payloadSum := by rcases hg with rfl | ⟨rfl, -⟩ <;> simp
  bufWf := hd.bufWf
  bufBound := hd.bufBound

/-- An accepted length opens a payload of that length, of which nothing has been received. -/
theorem inv_after_length (hd : d.Inv P) (hst : d.st = .awaitingLength) (hb : b.toNat < P.rxCap) :
    Decoder.Inv P { d with
      sum := d.sum + b, len := b.toNat, cur := 0,
      st := if b = 0 then .awaitingChecksum else .receivingPayload } where
  lenWidth := b.isLt
  curWidth := by simp
  receiving h := by
    have h0 : b ≠ 0 := by simpa using h
    exact ⟨by show 0 < b.toNat; bv_omega, hb⟩
  checksum h := by
    have h0 : b = 0 := by simpa using h
    subst h0; exact ⟨rfl, hb⟩
  lengthSum h := by split at h <;> cases h
  payloadSum _ := by simp [hd.lengthSum hst, cells]
  bufWf := hd.bufWf
  bufBound := hd.bufBound

/-- A payload byte goes below the last cell and into the accumulator. -/
theorem inv_after_payload (hd : d.Inv P) (hst : d.st = .receivingPayload) :
    Decoder.Inv P { d with
      sum := d.sum + b, buf := bufWrite d.buf d.cur b, cur := d.cur + 1,
      st := if d.cur + 1 = d.len then .awaitingChecksum else .receivingPayload } := by
  obtain ⟨hcur, hlen⟩ := hd.receiving hst
  have hwidth := hd.lenWidth
  exact {
    lenWidth := hwidth
    curWidth := by show d.cur + 1 < 256; omega
    receiving := fun h => by
      have hne : d.cur + 1 ≠ d.len := by simpa using h
      exact ⟨by show d.cur + 1 < d.len; omega, hlen⟩
    checksum := fun h => by
      exact ⟨by simpa using h, hlen⟩
    lengthSum := fun h => by split at h <;> cases h
    payloadSum := fun _ => by
      show d.sum + b = sum8 ([P.rxHeader, lengthByte d.len] ++ cells _ (d.cur + 1))
      rw [cells_after_store, ← List.append_assoc, sum8_append, ← hd.payloadSum (.inl hst)]
      simp
    bufWf := bufWrite_wf hd.bufWf _ _
    bufBound := fun a ha => by
      rw [bufRead_bufWrite_other d.buf b (by omega)]
      exact hd.bufBound a ha }

/-- One FEED keeps the invariant. -/
theorem feed_keeps_inv (hd : d.Inv P) (h : feed P d b = .ok (e, r)) : e.Inv P := by
  rcases feed_cases h with ⟨-, rfl, -, rfl⟩ | ⟨-, -, -, rfl⟩ | ⟨hst, hb, -, rfl⟩ | ⟨-, -, -, rfl⟩ |
    ⟨hst, -, -, rfl⟩ | ⟨-, -, rfl⟩
  · exact inv_before_payload hd (.inr ⟨rfl, rfl⟩)
  · exact hd
  · exact inv_after_length hd hst hb
  · exact inv_before_payload hd (.inl rfl)
  · exact inv_after_payload hd hst
  · exact inv_before_payload hd (.inl rfl)

theorem feeds_keeps_inv (hd : d.Inv P) (h : feeds P d w = .ok (e, rs)) : e.Inv P := by
  induction w generalizing d rs with
  | nil => cases h; exact hd
  | cons b w ih =>
    obtain ⟨d₁, r, rs', hb, hw, -⟩ := feeds_cons_ok h
    exact ih (feed_keeps_inv hd hb) hw

/-- FEED answers whenever a payload byte would go inside the buffer: no other byte is stored (R31). -/
theorem feed_succeeds (hd : d.st = .receivingPayload → d.cur < P.rxCap) (b : Byte) :
    ∃ e r, feed P d b = .ok (e, r) := by
  cases hst : d.st with
  | awaitingHeader =>
    by_cases hb : b = P.rxHeader
    · subst hb; exact ⟨_, _, feed_header hst⟩
    · exact ⟨_, _, feed_skip hst hb⟩
  | awaitingLength =>
    by_cases hb : b.toNat < P.rxCap
    · exact ⟨_, _, feed_length_accepted hst hb⟩
    · exact ⟨_, _, feed_length_rejected hst (Nat.not_lt.1 hb)⟩
  | receivingPayload => exact ⟨_, _, feed_payload hst (hd hst)⟩
  | awaitingChecksum => exact ⟨_, _, feed_checksum hst⟩

theorem feed_succeeds_of_inv (hd : d.Inv P) (b : Byte) : ∃ e r, feed P d b = .ok (e, r) :=
  feed_succeeds (fun hst => (hd.receiving hst).1.trans (hd.receiving hst).2) b

/-- Every byte string can be fed to a sound decoder (R60). -/
theorem feeds_succeeds_of_inv (hd : d.Inv P) (w : List Byte) : ∃ e rs, feeds P d w = .ok (e, rs) := by
  induction w generalizing d with
  | nil => exact ⟨d, [], feeds_nil⟩
  | cons b w ih =>
    obtain ⟨d₁, r, hb⟩ := feed_succeeds_of_inv hd b
    obtain ⟨e, rs, hw⟩ := ih (feed_keeps_inv hd hb)
    exact ⟨e, r :: rs, by rw [feeds_cons hb, hw]; rfl⟩

end

/-! ### What an instruction can do to the decoder -/

section
variable {i : Instr} {s t : State} {b : Byte}

theorem exec_feed (b : Byte) (s : State) : exec (.feed b) s = fedOutcome s (feed params s.dec b) := rfl

/-- A row that answers a next state is one whose condition held of its operands and of the decoder. -/
theorem exec_next_applies (h : exec i s = .next t) : i.wf params = true ∧ i.inMode s.dec.mode = true := by
  cases i with
  | feed | cmdFullMeasurement | cmdPm25Only | viewEcho | viewFullMeasurement | viewPm25Only => exact ⟨rfl, rfl⟩
  | _ =>
    obtain ⟨hw, hm, -⟩ := onRow_next h
    exact ⟨hw, hm⟩

/-- The store shared by PAY.STORE and PAY.LAST is FEED of a payload byte, if the tag after it is the one FEED picks. -/
theorem payloadStored_eq_feed {g : Tag} (hst : s.dec.st = .receivingPayload)
    (hg : g = if s.dec.cur + 1 = s.dec.len then .awaitingChecksum else .receivingPayload) :
    payloadStored s b g = exec (.feed b) s := by
  subst hg
  rw [exec_feed]
  by_cases hc : s.dec.cur < params.rxCap
  · rw [feed_payload hst hc, payloadStored, memWrite_ok b hc]; rfl
  · simp [feed, hst, payloadStored, memWrite_error b (Nat.not_lt.1 hc), fedOutcome]

/-- A byte class, where it applies, is FEED of its byte (R46, R61). -/
theorem exec_eq_feed_of_rx (hb : encode params i = .rx b) (hw : i.wf params = true)
    (hm : i.inMode s.dec.mode = true) : exec i s = exec (.feed b) s := by
  have happ : ∀ effect : Out, onRow i s effect = effect := fun _ => onRow_applies hw hm
  cases i with
  | hdrSync =>
    cases hb
    have hst : s.dec.st = .awaitingHeader := by simpa [Instr.inMode] using hm
    rw [exec_feed, feed_header hst]; exact happ _
  | hdrSkip c =>
    cases hb
    have hst : s.dec.st = .awaitingHeader := by simpa [Instr.inMode] using hm
    rw [exec_feed, feed_skip hst (by simpa [Instr.wf] using hw)]; exact happ _
  | lenZero =>
    cases hb
    have hst : s.dec.st = .awaitingLength := by simpa [Instr.inMode] using hm
    rw [exec_feed, feed_length_accepted hst (by decide)]; exact happ _
  | lenAccept n =>
    cases hb
    have hst : s.dec.st = .awaitingLength := by simpa [Instr.inMode] using hm
    obtain ⟨h0, hn⟩ : b ≠ 0 ∧ b.toNat < params.rxCap := by simpa [Instr.wf, lengthAccepted] using hw
    rw [exec_feed, feed_length hst hn h0]; exact happ _
  | lenReject n =>
    cases hb
    have hst : s.dec.st = .awaitingLength := by simpa [Instr.inMode] using hm
    rw [exec_feed, feed_length_rejected hst (by simpa [Instr.wf, lengthAccepted] using hw)]; exact happ _
  | payStore c =>
    cases hb
    obtain ⟨hst, hne⟩ : s.dec.st = .receivingPayload ∧ s.dec.cur + 1 ≠ s.dec.len := by
      simpa [Instr.inMode] using hm
    exact (happ _).trans (payloadStored_eq_feed hst (if_neg hne).symm)
  | payLast c =>
    cases hb
    obtain ⟨hst, heq⟩ : s.dec.st = .receivingPayload ∧ s.dec.cur + 1 = s.dec.len := by
      simpa [Instr.inMode] using hm
    exact (happ _).trans (payloadStored_eq_feed hst (if_pos heq).symm)
  | chkValid c =>
    cases hb
    obtain ⟨hst, hsum⟩ : s.dec.st = .awaitingChecksum ∧ s.dec.sum + b = 0 := by simpa [Instr.inMode] using hm
    rw [exec_feed, feed_checksum hst, completionResult, if_pos hsum]; exact happ _
  | chkInvalid c =>
    cases hb
    obtain ⟨hst, hsum⟩ : s.dec.st = .awaitingChecksum ∧ s.dec.sum + b ≠ 0 := by simpa [Instr.inMode] using hm
    rw [exec_feed, feed_checksum hst, completionResult, if_neg hsum]; exact happ _
  | _ => cases hb

/-- From `s` to `t` the decoder was fed some bytes, perhaps none, and nothing else happened to it. -/
def DecoderFed (s t : State) : Prop := ∃ w rs, feeds params s.dec w = .ok (t.dec, rs)

theorem decoderFed_of_dec_eq (h : t.dec = s.dec) : DecoderFed s t := ⟨[], [], by rw [h, feeds_nil]⟩

theorem feedBytes_decoderFed {bs : List Byte} (h : feedBytes bs s = .next t) : DecoderFed s t := by
  obtain ⟨d, rs, hd, rfl⟩ := fedsOutcome_next h
  exact ⟨bs, rs, hd⟩

theorem exec_feed_decoderFed (h : exec (.feed b) s = .next t) : DecoderFed s t := by
  obtain ⟨d, r, hd, rfl⟩ := fedOutcome_next h
  exact ⟨[b], [r], feeds_singleton hd⟩

theorem viewed_decoderFed {x : Except Refusal ViewValue} (h : viewed s x = .next t) : DecoderFed s t := by
  obtain ⟨v, rfl⟩ := viewed_next h
  exact decoderFed_of_dec_eq rfl

/-- Waiting for a valid frame feeds the received bytes up to those it leaves unfed (R91). -/
theorem awaitValid_feeds {P : Params} {d : Decoder} {w : List Byte} {a : Await} (h : awaitValid P d w = .ok a) :
    ∃ v, w = v ++ a.unfed ∧ feeds P d v = .ok (a.dec, a.results) := by
  induction w generalizing d a with
  | nil => cases h; exact ⟨[], rfl, feeds_nil⟩
  | cons b w ih =>
    cases hb : feed P d b with
    | error x => simp [awaitValid, hb] at h
    | ok o =>
      obtain ⟨e, r⟩ := o
      by_cases hr : r = .valid
      · subst hr
        rw [awaitValid_valid hb] at h
        cases h
        exact ⟨[b], rfl, feeds_singleton hb⟩
      · rw [awaitValid_other hb hr] at h
        cases hw : awaitValid P e w with
        | error x => simp [hw, Except.map] at h
        | ok a' =>
          rw [hw] at h
          cases h
          obtain ⟨v, hv, hf⟩ := ih hw
          exact ⟨b :: v, by simp [hv], by rw [feeds_cons hb, hf]; rfl⟩

theorem awaitResponse_decoderFed {c : Command} {ifNone : Option Report}
    (h : awaitResponse params c ifNone s = .next t) : DecoderFed s t := by
  cases ha : awaitValid params s.dec s.line.rx with
  | error x => simp [awaitResponse, ha] at h
  | ok a =>
    obtain ⟨rep, hrep, -, -⟩ := awaitResponse_next (c := c) (ifNone := ifNone) ha
    cases hrep.symm.trans h
    obtain ⟨v, -, hv⟩ := awaitValid_feeds ha
    exact ⟨v, _, hv⟩

theorem receiveResponse_decoderFed {c : Command} {bs : List Byte} (h : receiveResponse c bs s = .next t) :
    DecoderFed s t :=
  awaitResponse_decoderFed (s := arrive s (frame params.rxHeader bs)) h

/-- An instruction leaves the decoder alone or feeds it bytes. -/
theorem exec_decoderFed (h : exec i s = .next t) : DecoderFed s t := by
  obtain ⟨hw, hm⟩ := exec_next_applies h
  cases i with
  | hdrSync | hdrSkip | lenZero | lenAccept | lenReject | payStore | payLast | chkValid | chkInvalid =>
    rw [exec_eq_feed_of_rx rfl hw hm] at h
    exact exec_feed_decoderFed h
  | feed b => exact exec_feed_decoderFed h
  | encodeOk | encodeOverflow =>
    obtain ⟨-, -, he⟩ := onRow_next h
    cases he
    exact decoderFed_of_dec_eq rfl
  | frameRequest n p c =>
    obtain ⟨-, -, he⟩ := onRow_next h
    cases he
    exact decoderFed_of_dec_eq (transmit_dec ..)
  | cmdFullMeasurement | cmdPm25Only => cases h; exact decoderFed_of_dec_eq (transmit_dec ..)
  | frameResponse n p c =>
    obtain ⟨-, -, he⟩ := onRow_next h
    exact feedBytes_decoderFed he
  | rspFullMeasurement | rspPm25Only =>
    obtain ⟨-, -, he⟩ := onRow_next h
    exact receiveResponse_decoderFed he
  | viewEcho => rw [exec_viewEcho] at h; exact viewed_decoderFed h
  | viewFullMeasurement => rw [exec_viewFullMeasurement] at h; exact viewed_decoderFed h
  | viewPm25Only => rw [exec_viewPm25Only] at h; exact viewed_decoderFed h

/-! ### What a step can do to the decoder -/

theorem receivePayload_decoderFed {bs : List Byte} (h : receivePayload bs s = .next t) : DecoderFed s t := by
  unfold receivePayload at h
  split at h
  · exact feedBytes_decoderFed h
  · split at h
    · exact receiveResponse_decoderFed h
    · exact feedBytes_decoderFed h

theorem receiveUndecoded_decoderFed {c : Call} (h : receiveUndecoded c s = .next t) : DecoderFed s t := by
  cases c with
  | payload => exact receivePayload_decoderFed h
  | _ => exact feedBytes_decoderFed h

theorem issueCall_decoderFed {c : Call} (h : issueCall c s = .next t) : DecoderFed s t := by
  cases hc : decode params s.dec.mode c with
  | ok i => rw [issueCall_ok hc] at h; exact exec_decoderFed h
  | error x => rw [issueCall_error hc] at h; exact receiveUndecoded_decoderFed h

theorem request_decoderFed {c : Command} (h : request params c s = .next t) : DecoderFed s t := by
  unfold request at h
  split at h
  · cases h; exact decoderFed_of_dec_eq (transmit_dec ..)
  · obtain ⟨w, rs, hf⟩ := awaitResponse_decoderFed h
    exact ⟨w, rs, by rwa [transmit_dec] at hf⟩

/-- A clock cycle resets the decoder or feeds it at most its byte. -/
theorem clockCycle_dec {rst v : Bool} (h : clockCycle rst v b s = .next t) :
    DecoderFed s t ∨ ∃ n, t.dec = .afterReset n := by
  cases rst with
  | true => cases h; exact .inr ⟨_, rfl⟩
  | false =>
    cases v with
    | true => exact .inl (issueCall_decoderFed (c := .rx b) h)
    | false => cases h; exact .inl (decoderFed_of_dec_eq rfl)

/-- Everything an input can do to the decoder: feed it bytes, or reset it. -/
theorem issue_dec {x : Input} (h : issue x s = .next t) : DecoderFed s t ∨ ∃ n, t.dec = .afterReset n := by
  cases x with
  | call c => exact .inl (issueCall_decoderFed h)
  | clock rst v b => exact clockCycle_dec h
  | encoderPorts e => cases h; exact .inl (decoderFed_of_dec_eq rfl)
  | readPayload k => exact .inl (viewed_decoderFed h)
  | arrive bs => cases h; exact .inl (decoderFed_of_dec_eq rfl)
  | request c => exact .inl (request_decoderFed h)

/-- Everything a step can do to the decoder: feed it bytes, or reset it. -/
theorem step_dec (h : step s = .next t) : DecoderFed s t ∨ ∃ n, t.dec = .afterReset n := by
  cases hi : s.inputs with
  | nil =>
    have : step s = .next s := by simp [step, stepInputs, hi]
    cases this.symm.trans h
    exact .inl (decoderFed_of_dec_eq rfl)
  | cons x rest => rw [step_of_cons hi] at h; exact issue_dec (s := { s with inputs := rest }) h

end

/-! ### The invariant's obligations -/

/-- Settles O24: a step feeds the decoder bytes, which keeps the invariant, or resets it. -/
theorem stepKeepsTheInvariant : Obligations.StepKeepsTheInvariant := by
  intro s t hs h
  show t.dec.Inv params
  rcases step_dec h with ⟨w, rs, hfed⟩ | ⟨n, hreset⟩
  · exact feeds_keeps_inv hs hfed
  · rw [hreset]; exact inv_afterReset params n

/-- Settles O25: the invariant holds after reset and every byte keeps it, and a sound decoder takes every byte. -/
theorem reachableDecodersAreSound : Obligations.ReachableDecodersAreSound := by
  intro P n w _
  obtain ⟨d, rs, h⟩ := feeds_succeeds_of_inv (inv_afterReset P n) w
  have hd := feeds_keeps_inv (inv_afterReset P n) h
  exact ⟨d, rs, h, hd.receiving, hd.checksum, hd.lengthSum, hd.payloadSum⟩

/-- Settles O22. -/
theorem resetMeetsTheInvariant : Obligations.ResetMeetsTheInvariant := inv_afterReset params 0

/-! ### What one FEED does to each register -/

/-- Settles O13, by the cases of R61. -/
theorem feedUpdatesEachRegister : Obligations.FeedUpdatesEachRegister := by
  intro s t b h
  obtain ⟨d, r, hd, rfl⟩ := fedOutcome_next h
  rcases feed_cases hd with ⟨hst, hb, -, rfl⟩ | ⟨hst, hb, -, rfl⟩ | ⟨hst, hb, -, rfl⟩ | ⟨hst, hb, -, rfl⟩ |
    ⟨hst, -, -, rfl⟩ | ⟨hst, -, rfl⟩
  · simp [hst, hb]
  · have hb' : ¬ b = 0x16 := hb
    simp only [hst, if_neg hb']; simp
  · simp [hst, show b.toNat < 16 from hb]
  · simp [hst, show ¬ b.toNat < 16 from Nat.not_lt.2 hb]
  · simp [hst, bufRead_bufWrite]
  · simp [hst]

/-! ### The dead-field law (R24) -/

section
variable {P : Params} {d d' e : Decoder} {b : Byte} {r : Result} {w : List Byte} {rs : List Result}

/-- Two decoders in the same frame attempt: same tag, and equal in all that the attempt has written so far (nothing in
AwaitingHeader; then the accumulator; then the length, the cursor and the payload below it). What R19 says of the cursor
is part of it, so that the attempt never leaves the buffer. -/
structure SameAttempt (P : Params) (d d' : Decoder) : Prop where
  tag : d'.st = d.st
  sum : d.st ≠ .awaitingHeader → d'.sum = d.sum
  payload : d.st = .receivingPayload ∨ d.st = .awaitingChecksum →
    d'.len = d.len ∧ d'.cur = d.cur ∧ cells d' d.cur = cells d d.cur
  receiving : d.st = .receivingPayload → d.cur < d.len ∧ d.len < P.rxCap
  checksum : d.st = .awaitingChecksum → d.cur = d.len

/-- Scanning decoders are in the same attempt, namely in none. -/
theorem sameAttempt_of_header (h : d.st = .awaitingHeader) (h' : d'.st = .awaitingHeader) : SameAttempt P d d' := by
  constructor <;> simp [h, h']

/-- The same accepted length puts two decoders in the same attempt: the sums were equal, and nothing is received yet. -/
theorem sameAttempt_after_length (hsum : d'.sum = d.sum) (hb : b.toNat < P.rxCap) :
    SameAttempt P
      { d with
        sum := d.sum + b, len := b.toNat, cur := 0,
        st := if b = 0 then .awaitingChecksum else .receivingPayload }
      { d' with
        sum := d'.sum + b, len := b.toNat, cur := 0,
        st := if b = 0 then .awaitingChecksum else .receivingPayload } where
  tag := rfl
  sum := by simp [hsum]
  payload := by simp [cells]
  receiving h := by
    have h0 : b ≠ 0 := by simpa using h
    exact ⟨by show 0 < b.toNat; bv_omega, hb⟩
  checksum h := by
    have h0 : b = 0 := by simpa using h
    subst h0; rfl

/-- The same payload byte keeps two decoders in the same attempt: it goes to the same cell. -/
theorem sameAttempt_after_payload (h : SameAttempt P d d') (hst : d.st = .receivingPayload) (b : Byte) :
    SameAttempt P
      { d with
        sum := d.sum + b, buf := bufWrite d.buf d.cur b, cur := d.cur + 1,
        st := if d.cur + 1 = d.len then .awaitingChecksum else .receivingPayload }
      { d' with
        sum := d'.sum + b, buf := bufWrite d'.buf d'.cur b, cur := d'.cur + 1,
        st := if d'.cur + 1 = d'.len then .awaitingChecksum else .receivingPayload } := by
  obtain ⟨hlen, hcur, hcells⟩ := h.payload (.inl hst)
  obtain ⟨hlt, hcap⟩ := h.receiving hst
  exact {
    tag := by simp [hlen, hcur]
    sum := by simp [h.sum (by simp [hst])]
    payload := fun _ => by
      refine ⟨hlen, congrArg (· + 1) hcur, ?_⟩
      show cells _ (d.cur + 1) = cells _ (d.cur + 1)
      rw [cells_after_store, ← hcells, ← hcur, cells_after_store]
    receiving := fun hg => by
      have hne : d.cur + 1 ≠ d.len := by simpa using hg
      exact ⟨by show d.cur + 1 < d.len; omega, hcap⟩
    checksum := fun hg => by simpa using hg }

/-- One byte fed to two decoders in the same attempt: same result, still the same attempt, and at a VALID result the
same decoded payload. -/
theorem feed_sameAttempt (h : SameAttempt P d d') (b : Byte) :
    ∃ e e' r, feed P d b = .ok (e, r) ∧ feed P d' b = .ok (e', r) ∧ SameAttempt P e e' ∧
      (r = .valid → cells e e.len = cells e' e'.len) := by
  cases hst : d.st with
  | awaitingHeader =>
    have hst' := h.tag.trans hst
    by_cases hb : b = P.rxHeader
    · subst hb
      exact ⟨_, _, _, feed_header hst, feed_header hst', by constructor <;> simp, nofun⟩
    · exact ⟨_, _, _, feed_skip hst hb, feed_skip hst' hb, h, nofun⟩
  | awaitingLength =>
    have hst' := h.tag.trans hst
    by_cases hb : b.toNat < P.rxCap
    · exact ⟨_, _, _, feed_length_accepted hst hb, feed_length_accepted hst' hb,
        sameAttempt_after_length (h.sum (by simp [hst])) hb, nofun⟩
    · have hb := Nat.not_lt.1 hb
      exact ⟨_, _, _, feed_length_rejected hst hb, feed_length_rejected hst' hb, sameAttempt_of_header rfl rfl, nofun⟩
  | receivingPayload =>
    obtain ⟨-, hcur, -⟩ := h.payload (.inl hst)
    obtain ⟨hlt, hcap⟩ := h.receiving hst
    exact ⟨_, _, _, feed_payload hst (hlt.trans hcap), feed_payload (h.tag.trans hst) (by omega),
      sameAttempt_after_payload h hst b, nofun⟩
  | awaitingChecksum =>
    obtain ⟨hlen, -, hcells⟩ := h.payload (.inr hst)
    have hfull : cells d d.len = cells d' d'.len := by rw [hlen, ← h.checksum hst, hcells]
    have hfeed' := feed_checksum (P := P) (b := b) (h.tag.trans hst)
    rw [h.sum (by simp [hst])] at hfeed'
    exact ⟨_, _, _, feed_checksum hst, hfeed', sameAttempt_of_header rfl rfl, fun _ => hfull⟩

/-- Any bytes fed to two decoders in the same attempt, by induction on the bytes from their end: the last result and
the payload it stands for are the last byte's. -/
theorem feeds_sameAttempt (h : SameAttempt P d d') (w : List Byte) :
    ∃ e e' rs, feeds P d w = .ok (e, rs) ∧ feeds P d' w = .ok (e', rs) ∧ SameAttempt P e e' ∧
      (rs.getLast? = some .valid → cells e e.len = cells e' e'.len) := by
  induction w using List.reverseRecOn with
  | nil => exact ⟨d, d', [], feeds_nil, feeds_nil, h, nofun⟩
  | append_singleton w b ih =>
    obtain ⟨e, e', rs, he, he', hsame, -⟩ := ih
    obtain ⟨f, f', r, hf, hf', hsame', hvalid⟩ := feed_sameAttempt hsame b
    exact ⟨f, f', rs ++ [r], feeds_concat he hf, feeds_concat he' hf', hsame',
      fun hlast => hvalid (by simpa using hlast)⟩

/-- What the buffer holds changes only what the buffer holds afterwards. -/
theorem feed_with_buf (h : feed P d b = .ok (e, r)) (m : Memory) :
    ∃ m', feed P { d with buf := m } b = .ok ({ e with buf := m' }, r) := by
  rcases feed_cases h with ⟨hst, rfl, rfl, rfl⟩ | ⟨hst, hb, rfl, rfl⟩ | ⟨hst, hb, rfl, rfl⟩ | ⟨hst, hb, rfl, rfl⟩ |
    ⟨hst, hc, rfl, rfl⟩ | ⟨hst, rfl, rfl⟩
  · exact ⟨m, feed_header hst⟩
  · exact ⟨m, feed_skip hst hb⟩
  · exact ⟨m, feed_length_accepted hst hb⟩
  · exact ⟨m, feed_length_rejected hst hb⟩
  · exact ⟨bufWrite m d.cur b, feed_payload hst hc⟩
  · exact ⟨m, feed_checksum hst⟩

theorem feeds_with_buf (h : feeds P d w = .ok (e, rs)) (m : Memory) :
    ∃ m', feeds P { d with buf := m } w = .ok ({ e with buf := m' }, rs) := by
  induction w generalizing d rs m with
  | nil => cases h; exact ⟨m, feeds_nil⟩
  | cons b w ih =>
    obtain ⟨d₁, r, rs', hb, hw, rfl⟩ := feeds_cons_ok h
    obtain ⟨m₁, hb'⟩ := feed_with_buf hb m
    obtain ⟨m', hw'⟩ := ih hw m₁
    exact ⟨m', by rw [feeds_cons hb', hw']; rfl⟩

end

/-- Settles O30: two scanning decoders are in the same attempt, which every byte keeps; and no register or result is
computed from the buffer. -/
theorem deadFieldsDecideNothing : Obligations.DeadFieldsDecideNothing := by
  intro P w _
  constructor
  · intro d d' h h'
    obtain ⟨e, e', rs, he, he', hsame, hvalid⟩ := feeds_sameAttempt (sameAttempt_of_header h h') w
    exact ⟨e, e', rs, he, he', hsame.tag.symm, hvalid⟩
  · intro d e m rs h
    obtain ⟨m', h'⟩ := feeds_with_buf h m
    exact ⟨_, h', rfl⟩

end Sys2Proof.Proofs
end

section
/-! PROOFS. What the operations that are no payload bytes leave unchanged, the caller's payload reads, and the step as
the instruction its input decodes to. -/

namespace Sys2Proof.Proofs

open Sys2Proof.Machine Sys2Proof.Laws

/-! ### Frames of the rows that store nothing -/

section
variable {i : Instr} {s t : State}

/-- From `s` to `t` at most the encoder's output, the value the caller read and the outgoing bytes changed. -/
def ReceiveSideKept (s t : State) : Prop :=
  t.dec = s.dec ∧ t.results = s.results ∧ t.report = s.report ∧ t.line.rx = s.line.rx ∧ t.inputs = s.inputs

theorem receiveSideKept_transmit (P : Params) (s : State) (p : List Byte) : ReceiveSideKept s (transmit P s p) :=
  ⟨transmit_dec .., transmit_results .., transmit_report .., transmit_rx .., transmit_inputs ..⟩

theorem receiveSideKept_encoded (s : State) (r : Option EncResult) : ReceiveSideKept s { s with enc := r } :=
  ⟨rfl, rfl, rfl, rfl, rfl⟩

theorem receiveSideKept_of_viewed {x : Except Refusal ViewValue} (h : viewed s x = .next t) : ReceiveSideKept s t := by
  obtain ⟨v, rfl⟩ := viewed_next h
  exact ⟨rfl, rfl, rfl, rfl, rfl⟩

/-- A row whose effect is one next state answers that state or nothing. -/
theorem onRow_next_eq {u : State} (h : onRow i s (.next u) = .next t) : t = u := by
  obtain ⟨-, -, hu⟩ := onRow_next h
  cases hu
  rfl

end

/-- Settles O17: the rows that store nothing answer a decoder with the old buffer, and the outbound rows and the views
only write what the caller holds. -/
theorem onlyPayloadBytesWriteTheBuffer : Obligations.OnlyPayloadBytesWriteTheBuffer := by
  intro i s t h
  constructor
  · rintro (rfl | ⟨b, rfl⟩ | rfl | ⟨n, rfl⟩ | ⟨n, rfl⟩ | ⟨c, rfl⟩ | ⟨c, rfl⟩) a <;> rw [onRow_next_eq h] <;> rfl
  · rintro (⟨p, rfl⟩ | ⟨p, rfl⟩ | ⟨n, p, c, rfl⟩ | rfl | rfl | rfl | rfl | rfl)
    · rw [onRow_next_eq h]; exact receiveSideKept_encoded s _
    · rw [onRow_next_eq h]; exact receiveSideKept_encoded s _
    · rw [onRow_next_eq h]; exact receiveSideKept_transmit params s p
    · cases h; exact receiveSideKept_transmit params s _
    · cases h; exact receiveSideKept_transmit params s _
    · rw [exec_viewEcho] at h; exact receiveSideKept_of_viewed h
    · rw [exec_viewFullMeasurement] at h; exact receiveSideKept_of_viewed h
    · rw [exec_viewPm25Only] at h; exact receiveSideKept_of_viewed h

/-! ### The caller's payload reads -/

theorem memRead_error {P : Params} {d : Decoder} {i : Nat} (h : P.rxCap ≤ i) :
    memRead P d i = .error .readOutsideBuffer := by
  simp [memRead, Nat.not_lt.2 h]

theorem readPayload_inside {i : Nat} {s : State} (h : i < 16) :
    readPayload i s = .next { s with view := some (.cell (cell s.dec i)) } := by
  rw [readPayload, memRead_ok h]; rfl

theorem readPayload_outside {i : Nat} {s : State} (h : 16 ≤ i) : readPayload i s = .refused .readOutsideBuffer := by
  rw [readPayload, memRead_error h]; rfl

/-- Settles O51: the step is the read, and the bound is that of `MemRead`. -/
theorem payloadReadsAreBounded : Obligations.PayloadReadsAreBounded := by
  intro s i rest hi
  rw [step_of_cons hi]
  exact ⟨readPayload_inside, readPayload_outside⟩

/-! ### The decoder answers rows that apply -/

section
variable {P : Params} {m : Mode} {i : Instr} {bs : List Byte}

/-- The class of a byte is a row whose condition holds of the byte and of the mode (R46). -/
theorem classify_applies (P : Params) (m : Mode) (b : Byte) :
    (classify P m b).wf P = true ∧ (classify P m b).inMode m = true := by
  unfold classify
  cases hst : m.st with
  | awaitingHeader =>
    dsimp only
    split_ifs with hb
    · exact ⟨rfl, decide_eq_true hst⟩
    · exact ⟨decide_eq_true hb, decide_eq_true hst⟩
  | awaitingLength =>
    dsimp only
    split_ifs with hn h0
    · subst h0; exact ⟨hn, decide_eq_true hst⟩
    · exact ⟨Bool.and_eq_true_iff.2 ⟨decide_eq_true h0, hn⟩, decide_eq_true hst⟩
    · exact ⟨by simpa [Instr.wf] using hn, decide_eq_true hst⟩
  | receivingPayload =>
    dsimp only
    split_ifs with hc
    · exact ⟨rfl, Bool.and_eq_true_iff.2 ⟨decide_eq_true hst, decide_eq_true hc⟩⟩
    · exact ⟨rfl, Bool.and_eq_true_iff.2 ⟨decide_eq_true hst, decide_eq_true hc⟩⟩
  | awaitingChecksum =>
    dsimp only
    split_ifs with hs
    · exact ⟨rfl, Bool.and_eq_true_iff.2 ⟨decide_eq_true hst, decide_eq_true hs⟩⟩
    · exact ⟨rfl, Bool.and_eq_true_iff.2 ⟨decide_eq_true hst, decide_eq_true hs⟩⟩

/-- Everything a byte string that decodes as a frame is: header, length byte, that many payload bytes and a checksum that
balances them (R41, R44, R45); the header says whether it is a response or a request (R42). -/
theorem decodeFrame_ok (h : decodeFrame P bs = .ok i) :
    ∃ hd n p c, bs = hd :: n :: (p ++ [c]) ∧ frameWellFormed hd n p c = true ∧
      (hd = P.rxHeader ∧ i = .frameResponse n p c ∨ hd = P.txHeader ∧ i = classifyRequest n p c) := by
  unfold decodeFrame at h
  split at h
  case h_2 => cases h
  case h_1 hd n tail =>
    dsimp only at h
    split at h
    case h_2 => cases h
    case h_1 c hdrop =>
      have htail : tail = tail.take n.toNat ++ [c] := by rw [← hdrop, List.take_append_drop]
      have hlen : (tail.take n.toNat).length = n.toNat := by
        have := congrArg List.length hdrop
        simp only [List.length_drop, List.length_singleton] at this
        simp only [List.length_take]; omega
      split_ifs at h with hsum hrx htx
      all_goals
        cases h
        have hwf : frameWellFormed hd n (tail.take n.toNat) c = true := by
          simp only [frameWellFormed, ← htail, hlen, hsum, decide_true, Bool.and_self]
      · exact ⟨hd, n, _, c, congrArg (hd :: n :: ·) htail, hwf, .inl ⟨hrx, rfl⟩⟩
      · exact ⟨hd, n, _, c, congrArg (hd :: n :: ·) htail, hwf, .inr ⟨htx, rfl⟩⟩

/-- A well-formed request frame is classified as a row that applies in every mode. -/
theorem classifyRequest_applies {n c : Byte} {p : List Byte} (h : frameWellFormed P.txHeader n p c = true) (m : Mode) :
    (classifyRequest n p c).wf P = true ∧ (classifyRequest n p c).inMode m = true := by
  unfold classifyRequest
  split_ifs with hfull hpm
  · exact ⟨rfl, rfl⟩
  · exact ⟨rfl, rfl⟩
  · exact ⟨by simp [Instr.wf, h, hfull, hpm], rfl⟩

/-- Everything a byte string that decodes as a payload is: the bytes of a response whose length a length byte can
express (R43, R53, R54). -/
theorem decodePayload_ok (h : decodePayload bs = .ok i) :
    bs.length ≤ 255 ∧
    ((∃ r, i = .rspFullMeasurement r ∧ fullPayloadBytes r = bs) ∨ ∃ r, i = .rspPm25Only r ∧ pm25PayloadBytes r = bs) := by
  unfold decodePayload at h
  split at h
  case h_1 => cases h
  case h_2 e tail =>
    split_ifs at h with hlen hfull hpm
    · refine ⟨by simp only [List.length_cons]; omega, ?_⟩
      split at h
      · cases h
        exact .inl ⟨_, rfl, by simp [fullPayloadBytes, hfull]⟩
      · cases h
    · refine ⟨by simp only [List.length_cons]; omega, ?_⟩
      split at h
      · cases h
        exact .inr ⟨_, rfl, by simp [pm25PayloadBytes, hpm]⟩
      · cases h

/-- What the decoder answers is a row whose condition holds of its operands and of the mode (R46). -/
theorem decode_applies {c : Call} (h : decode P m c = .ok i) : i.wf P = true ∧ i.inMode m = true := by
  cases c with
  | rx b => cases h; exact classify_applies P m b
  | feed b => cases h; exact ⟨rfl, rfl⟩
  | encode p =>
    cases h
    split_ifs with hp
    · exact ⟨hp, rfl⟩
    · exact ⟨by simpa [Instr.wf] using hp, rfl⟩
  | frame bs =>
    obtain ⟨hd, n, p, c, -, hwf, ⟨rfl, rfl⟩ | ⟨rfl, rfl⟩⟩ := decodeFrame_ok h
    · exact ⟨hwf, rfl⟩
    · exact classifyRequest_applies hwf m
  | payload bs =>
    obtain ⟨hlen, ⟨r, rfl, rfl⟩ | ⟨r, rfl, rfl⟩⟩ := decodePayload_ok h
    · exact ⟨decide_eq_true hlen, rfl⟩
    · exact ⟨decide_eq_true hlen, rfl⟩
  | view v => cases v <;> cases h <;> exact ⟨rfl, rfl⟩

end

/-! ### What a byte string that is the word of no row does -/

section
variable {s : State} {bs : List Byte}

theorem receivePayload_long (h : 255 < bs.length) : receivePayload bs s = feedBytes bs s := by
  rw [receivePayload, if_pos h]

theorem receivePayload_echo {k : Command} (hl : bs.length ≤ 255) (hk : bs.head? = some (commandCode k)) :
    receivePayload bs s = receiveResponse k bs s := by
  rw [receivePayload, if_neg (Nat.not_lt.2 hl), echoedCommand_eq_some.2 hk]

theorem receivePayload_no_echo (hl : bs.length ≤ 255) (hk : ∀ k, bs.head? ≠ some (commandCode k)) :
    receivePayload bs s = feedBytes (frame params.rxHeader bs) s := by
  have hnone : echoedCommand bs = none :=
    Option.eq_none_iff_forall_ne_some.2 fun k h => hk k (echoedCommand_eq_some.1 h)
  rw [receivePayload, if_neg (Nat.not_lt.2 hl), hnone]

end

/-! ### From a sound state every call completes -/

/-- The operation answers a next state, with the inputs of `s` still to come. -/
def Completes (s : State) (o : Out) : Prop := ∃ t, o = .next t ∧ t.inputs = s.inputs

section
variable {i : Instr} {s : State} {bs : List Byte}

theorem completes_next {t : State} (h : t.inputs = s.inputs) : Completes s (.next t) := ⟨t, rfl, h⟩

theorem viewed_completes (s : State) (v : ViewValue) : Completes s (viewed s (.ok v)) := completes_next rfl

theorem exec_feed_completes (hs : s.Inv) (b : Byte) : Completes s (exec (.feed b) s) := by
  obtain ⟨d, r, h⟩ := feed_succeeds_of_inv hs b
  rw [exec_feed, h]
  exact completes_next rfl

theorem feedBytes_completes (hs : s.Inv) (bs : List Byte) : Completes s (feedBytes bs s) := by
  obtain ⟨d, rs, h⟩ := feeds_succeeds_of_inv hs bs
  rw [feedBytes_ok h]
  exact completes_next rfl

/-- A sound decoder waits for a valid frame among any bytes without a fault (R60). -/
theorem awaitValid_succeeds_of_inv {P : Params} {d : Decoder} (hd : d.Inv P) (w : List Byte) :
    ∃ a, awaitValid P d w = .ok a := by
  induction w generalizing d with
  | nil => exact ⟨_, awaitValid_nil P d⟩
  | cons b w ih =>
    obtain ⟨e, r, hb⟩ := feed_succeeds_of_inv hd b
    by_cases hr : r = .valid
    · subst hr; exact ⟨_, awaitValid_valid hb w⟩
    · obtain ⟨a, ha⟩ := ih (feed_keeps_inv hd hb)
      exact ⟨_, by rw [awaitValid_other hb hr, ha]; rfl⟩

theorem awaitResponse_completes (hs : s.Inv) (c : Command) (ifNone : Option Report) :
    Completes s (awaitResponse params c ifNone s) := by
  obtain ⟨a, ha⟩ := awaitValid_succeeds_of_inv hs s.line.rx
  obtain ⟨rep, h, -, -⟩ := awaitResponse_next (c := c) (ifNone := ifNone) ha
  rw [h]
  exact completes_next rfl

theorem receiveResponse_completes (hs : s.Inv) (c : Command) (bs : List Byte) :
    Completes s (receiveResponse c bs s) :=
  awaitResponse_completes (s := arrive s (frame params.rxHeader bs)) hs c s.report

/-- A row that applies completes. -/
theorem exec_completes (hs : s.Inv) (hw : i.wf params = true) (hm : i.inMode s.dec.mode = true) :
    Completes s (exec i s) := by
  have onRow_completes {effect : Out} (he : Completes s effect) : Completes s (onRow i s effect) := by
    rwa [onRow_applies hw hm]
  cases i with
  | hdrSync | hdrSkip | lenZero | lenAccept | lenReject | payStore | payLast | chkValid | chkInvalid =>
    rw [exec_eq_feed_of_rx rfl hw hm]
    exact exec_feed_completes hs _
  | feed b => exact exec_feed_completes hs b
  | encodeOk | encodeOverflow => exact onRow_completes (completes_next rfl)
  | frameRequest n p c => exact onRow_completes (completes_next (transmit_inputs ..))
  | cmdFullMeasurement | cmdPm25Only => exact completes_next (transmit_inputs ..)
  | frameResponse n p c => exact onRow_completes (feedBytes_completes hs _)
  | rspFullMeasurement | rspPm25Only => exact onRow_completes (receiveResponse_completes hs _ _)
  | viewEcho => rw [exec_viewEcho, echoRead_ok (by decide)]; exact viewed_completes s _
  | viewFullMeasurement => rw [exec_viewFullMeasurement, fullRead_ok (by decide)]; exact viewed_completes s _
  | viewPm25Only => rw [exec_viewPm25Only, pm25Read_ok (by decide)]; exact viewed_completes s _

theorem receivePayload_completes (hs : s.Inv) (bs : List Byte) : Completes s (receivePayload bs s) := by
  unfold receivePayload
  split
  · exact feedBytes_completes hs _
  · split
    · exact receiveResponse_completes hs _ _
    · exact feedBytes_completes hs _

theorem receiveUndecoded_completes (hs : s.Inv) (c : Call) : Completes s (receiveUndecoded c s) := by
  cases c with
  | payload bs => exact receivePayload_completes hs bs
  | _ => exact feedBytes_completes hs _

theorem issueCall_completes (hs : s.Inv) (c : Call) : Completes s (issueCall c s) := by
  cases hc : decode params s.dec.mode c with
  | ok i =>
    obtain ⟨hw, hm⟩ := decode_applies hc
    rw [issueCall_ok hc]
    exact exec_completes hs hw hm
  | error e => rw [issueCall_error hc]; exact receiveUndecoded_completes hs c

end

/-- Settles O54: the step issues the call, which runs what it decodes to, or is received as a byte string; both complete
from a sound state. -/
theorem stepRunsTheDecodedInstruction : Obligations.StepRunsTheDecodedInstruction := by
  intro s c rest hc
  rw [step_of_cons hc]
  refine ⟨fun i => issueCall_ok (s := { s with inputs := rest }), fun e he => ?_,
    fun hs => issueCall_completes (s := { s with inputs := rest }) hs c⟩
  have hreceived : issue (.call c) { s with inputs := rest } = receiveUndecoded c { s with inputs := rest } :=
    issueCall_error (s := { s with inputs := rest }) he
  rw [hreceived]
  constructor
  · rintro bs (rfl | ⟨rfl, hlong⟩)
    · rfl
    · exact receivePayload_long hlong
  · rintro bs rfl hl
    exact ⟨fun k hk => receivePayload_echo hl hk, receivePayload_no_echo hl⟩

end Sys2Proof.Proofs
end

section
/-! PROOFS. Decoding and encoding are inverse (R46, R58), and what the rows do that hand over a whole request frame or a
whole response (log entry 9). -/

namespace Sys2Proof.Proofs

open Sys2Proof.Machine Sys2Proof.Laws

/-! ### The class of a byte is the only one that applies -/

section
variable {P : Params} {m : Mode} {i : Instr} {b : Byte}

theorem format_encode (P : Params) (i : Instr) : (encode P i).format = i.format := by cases i <;> rfl

theorem encode_classify (P : Params) (m : Mode) (b : Byte) : encode P (classify P m b) = .rx b := by
  unfold classify
  cases m.st with
  | awaitingHeader =>
    dsimp only
    split_ifs with hb
    · subst hb; rfl
    · rfl
  | awaitingLength =>
    dsimp only
    split_ifs with hn h0
    · subst h0; rfl
    · rfl
    · rfl
  | receivingPayload => dsimp only; split_ifs <;> rfl
  | awaitingChecksum => dsimp only; split_ifs <;> rfl

/-- A row of the byte `b` whose condition holds is the class of `b`: the conditions are those of R61's arms. -/
theorem classify_eq_of_applies (hb : encode P i = .rx b) (hw : i.wf P = true) (hm : i.inMode m = true) :
    classify P m b = i := by
  cases i with
  | hdrSync =>
    cases hb
    have hst : m.st = .awaitingHeader := by simpa [Instr.inMode] using hm
    simp [classify, hst]
  | hdrSkip =>
    cases hb
    have hst : m.st = .awaitingHeader := by simpa [Instr.inMode] using hm
    have hne : b ≠ P.rxHeader := by simpa [Instr.wf] using hw
    simp [classify, hst, hne]
  | lenZero =>
    cases hb
    have hst : m.st = .awaitingLength := by simpa [Instr.inMode] using hm
    have hlen : lengthAccepted P 0 = true := hw
    simp only [classify, hst, hlen, ↓reduceIte]
  | lenAccept =>
    cases hb
    have hst : m.st = .awaitingLength := by simpa [Instr.inMode] using hm
    obtain ⟨h0, hlen⟩ : b ≠ 0 ∧ lengthAccepted P b = true := by simpa [Instr.wf] using hw
    simp only [classify, hst, if_pos hlen, if_neg h0]
  | lenReject =>
    cases hb
    have hst : m.st = .awaitingLength := by simpa [Instr.inMode] using hm
    have hlen : lengthAccepted P b = false := by simpa [Instr.wf] using hw
    simp [classify, hst, hlen]
  | payStore =>
    cases hb
    obtain ⟨hst, hne⟩ : m.st = .receivingPayload ∧ m.cur + 1 ≠ m.len := by simpa [Instr.inMode] using hm
    simp [classify, hst, hne]
  | payLast =>
    cases hb
    obtain ⟨hst, heq⟩ : m.st = .receivingPayload ∧ m.cur + 1 = m.len := by simpa [Instr.inMode] using hm
    simp [classify, hst, heq]
  | chkValid =>
    cases hb
    obtain ⟨hst, hsum⟩ : m.st = .awaitingChecksum ∧ m.sum + b = 0 := by simpa [Instr.inMode] using hm
    simp only [classify, hst, if_pos hsum]
  | chkInvalid =>
    cases hb
    obtain ⟨hst, hsum⟩ : m.st = .awaitingChecksum ∧ m.sum + b ≠ 0 := by simpa [Instr.inMode] using hm
    simp only [classify, hst, if_neg hsum]
  | _ => cases hb

end

/-- Settles O12: the byte's class applies, and every row of the byte that applies is its class. -/
theorem exactlyOneClassApplies : Obligations.ExactlyOneClassApplies := by
  intro m b
  have hb := encode_classify params m b
  obtain ⟨hw, hm⟩ := classify_applies params m b
  refine ⟨classify params m b, ⟨?_, hb, hw, hm⟩, fun i ⟨_, hb', hw', hm'⟩ =>
    (classify_eq_of_applies hb' hw' hm').symm⟩
  rw [← format_encode params, hb]; rfl

/-! ### Frames and payloads: decoding what was encoded -/

section
variable {P : Params} {m : Mode} {i : Instr} {h n c : Byte} {p : List Byte}

/-- FRAME.REQUEST's condition: a well-formed request frame that is neither command's (R42, R89). -/
theorem wf_frameRequest_iff : (Instr.frameRequest n p c).wf P = true ↔
    frameWellFormed P.txHeader n p c = true ∧ p ≠ commandPayload .fullMeasurement ∧ p ≠ commandPayload .pm25Only := by
  simp only [Instr.wf, Bool.and_eq_true, decide_eq_true_eq, and_assoc]

/-- A well-formed frame is read back into its length byte, payload and checksum; its header names the direction. -/
theorem decodeFrame_of_wellFormed (hw : frameWellFormed h n p c = true) :
    decodeFrame P (h :: n :: (p ++ [c])) =
      if h = P.rxHeader then .ok (.frameResponse n p c)
      else if h = P.txHeader then .ok (classifyRequest n p c)
      else .error .badHeader := by
  obtain ⟨hlen, hsum⟩ : p.length = n.toNat ∧ sum8 (h :: n :: (p ++ [c])) = 0 := by
    simpa only [frameWellFormed, Bool.and_eq_true, decide_eq_true_eq] using hw
  simp only [decodeFrame, ← hlen, List.take_left, List.drop_left, if_pos hsum]

theorem decodeFrame_response (hw : frameWellFormed P.rxHeader n p c = true) :
    decodeFrame P (P.rxHeader :: n :: (p ++ [c])) = .ok (.frameResponse n p c) := by
  rw [decodeFrame_of_wellFormed hw, if_pos rfl]

/-- A request frame is no response frame, the headers being distinct (R42). -/
theorem decodeFrame_request (hP : P.rxHeader ≠ P.txHeader) (hw : frameWellFormed P.txHeader n p c = true) :
    decodeFrame P (P.txHeader :: n :: (p ++ [c])) = .ok (classifyRequest n p c) := by
  rw [decodeFrame_of_wellFormed hw, if_neg hP.symm, if_pos rfl]

/-- The frame of a payload whose length a length byte can express is well formed (R43, R86). -/
theorem frameWellFormed_frame (h : Byte) (hl : p.length < 256) :
    frameWellFormed h (lengthByte p.length) p (chk (h :: lengthByte p.length :: p)) = true := by
  have hsum := sum8_frame h p
  rw [frame_eq_cons] at hsum
  simp only [frameWellFormed, toNat_lengthByte hl, hsum, decide_true, Bool.and_self]

/-- The request frame of a payload is read back as the row of that payload (R89). -/
theorem decodeFrame_requestFrame (hP : P.rxHeader ≠ P.txHeader) (hl : p.length < 256) :
    decodeFrame P (frame P.txHeader p) =
      .ok (classifyRequest (lengthByte p.length) p (chk (P.txHeader :: lengthByte p.length :: p))) := by
  rw [frame_eq_cons, decodeFrame_request hP (frameWellFormed_frame P.txHeader hl)]

theorem decodePayload_full {r : FullPayload} (hl : (fullPayloadBytes r).length ≤ 255) :
    decodePayload (fullPayloadBytes r) = .ok (.rspFullMeasurement r) := by
  simp only [fullPayloadBytes, List.length_cons] at hl
  simp [fullPayloadBytes, decodePayload, show ¬ 243 ≤ r.rest.length by omega]

theorem decodePayload_pm25 {r : Pm25Payload} (hl : (pm25PayloadBytes r).length ≤ 255) :
    decodePayload (pm25PayloadBytes r) = .ok (.rspPm25Only r) := by
  simp only [pm25PayloadBytes, List.length_cons] at hl
  simp [pm25PayloadBytes, decodePayload, commandCode, show ¬ 251 ≤ r.rest.length by omega]

/-- What an instruction encodes to decodes to it, wherever its row applies, if the headers are distinct (R42). -/
theorem decode_encode (hP : P.rxHeader ≠ P.txHeader) (hw : i.wf P = true) (hm : i.inMode m = true) :
    decode P m (encode P i) = .ok i := by
  cases i with
  | hdrSync | hdrSkip | lenZero | lenAccept | lenReject | payStore | payLast | chkValid | chkInvalid =>
    exact congrArg Except.ok (classify_eq_of_applies rfl hw hm)
  | feed | viewEcho | viewFullMeasurement | viewPm25Only => rfl
  | encodeOk p => exact congrArg Except.ok (if_pos hw)
  | encodeOverflow p => exact congrArg Except.ok (if_neg (by simpa [Instr.wf] using hw))
  | frameResponse n p c => exact decodeFrame_response hw
  | frameRequest n p c =>
    obtain ⟨hframe, hfull, hpm⟩ := wf_frameRequest_iff.1 hw
    exact (decodeFrame_request hP hframe).trans (by rw [classifyRequest, if_neg hfull, if_neg hpm])
  | cmdFullMeasurement | cmdPm25Only => rw [encode, decode, decodeFrame_requestFrame hP (by decide)]; rfl
  | rspFullMeasurement r => exact decodePayload_full (of_decide_eq_true hw)
  | rspPm25Only r => exact decodePayload_pm25 (of_decide_eq_true hw)

/-! ### Encoding what was decoded -/

/-- A command row encodes to the one frame its payload has. -/
theorem encode_classifyRequest (hw : frameWellFormed P.txHeader n p c = true) :
    encode P (classifyRequest n p c) = .frame (P.txHeader :: n :: (p ++ [c])) := by
  unfold classifyRequest
  split_ifs with hfull hpm
  · subst hfull; exact congrArg Call.frame (frame_of_wellFormed hw).symm
  · subst hpm; exact congrArg Call.frame (frame_of_wellFormed hw).symm
  · rfl

/-- What a call decodes to encodes back to the call. -/
theorem encode_of_decode {k : Call} (hk : decode P m k = .ok i) : encode P i = k := by
  cases k with
  | rx b => cases hk; exact encode_classify P m b
  | feed b => cases hk; rfl
  | encode p => cases hk; split_ifs <;> rfl
  | frame bs =>
    obtain ⟨hd, n, p, c, rfl, hw, ⟨rfl, rfl⟩ | ⟨rfl, rfl⟩⟩ := decodeFrame_ok hk
    · rfl
    · exact encode_classifyRequest hw
  | payload bs =>
    obtain ⟨-, ⟨r, rfl, rfl⟩ | ⟨r, rfl, rfl⟩⟩ := decodePayload_ok hk
    · rfl
    · rfl
  | view v => cases v <;> cases hk <;> rfl

end

/-- Settles O59: this hardware's headers are distinct. -/
theorem decodeOfEncodeIsTheInstruction : Obligations.DecodeOfEncodeIsTheInstruction :=
  fun _ _ hw hm => decode_encode (by decide) hw hm

/-- Settles O60: what is decoded applies, and encodes back. -/
theorem encodeOfDecodeIsTheCall : Obligations.EncodeOfDecodeIsTheCall := by
  intro m k i hk
  obtain ⟨hw, hm⟩ := decode_applies hk
  exact ⟨hw, hm, encode_of_decode hk⟩

/-- Settles O58: each word is what its row encodes to, and decoding gives the row back. -/
theorem writtenWordsDecode : Obligations.WrittenWordsDecode := by
  refine ⟨fun m hm => ?_, fun m hm => ?_, fun m => ?_, fun m => ?_, fun m => ?_⟩
  · exact decodeOfEncodeIsTheInstruction .hdrSync m rfl (decide_eq_true hm)
  · exact decodeOfEncodeIsTheInstruction (.lenAccept 13) m (by decide) (decide_eq_true hm)
  · exact decodeOfEncodeIsTheInstruction .cmdFullMeasurement m rfl rfl
  · exact decodeOfEncodeIsTheInstruction (.frameResponse 1 [2] 0xE7) m (by decide) rfl
  · exact decodeOfEncodeIsTheInstruction (.rspPm25Only ⟨0, 0, 35, []⟩) m (by decide) rfl

/-! ### A request frame is written out -/

/-- Settles O42: a well-formed frame is the frame of its payload, which is what the encoder returns if it fits. -/
theorem requestFrameIsProduced : Obligations.RequestFrameIsProduced := by
  intro s n p c hw
  have hexec : exec (.frameRequest n p c) s = .next (transmit params s p) := onRow_applies hw rfl
  obtain ⟨hframe, -, -⟩ := wf_frameRequest_iff.1 hw
  rw [hexec]
  split_ifs with hfit
  · have henc := encoder_fits (P := params) hfit
    rw [← frame_of_wellFormed hframe] at henc
    simp only [transmit, henc]
  · have henc := encoder_overflows (P := params) (Nat.not_le.1 hfit)
    simp only [transmit, henc]

/-! ### A whole frame is fed -/

/-- Write bytes into consecutive cells, the first into cell `a`. -/
def bufWriteAll : Memory → Nat → List Byte → Memory
  | m, _, [] => m
  | m, a, b :: bs => bufWriteAll (bufWrite m a b) (a + 1) bs

/-- The decoder after a whole frame with payload `p` whose bytes sum to `v`: scanning, with the payload in the buffer. -/
def afterFrame (d : Decoder) (p : List Byte) (v : Byte) : Decoder :=
  { d with st := .awaitingHeader, sum := v, len := p.length, cur := p.length, buf := bufWriteAll d.buf 0 p }

section
variable {P : Params} {d e : Decoder} {p w : List Byte} {c : Byte} {rs : List Result}

theorem bufRead_bufWriteAll_outside {m : Memory} {a x : Nat} (hx : x < a ∨ a + p.length ≤ x) :
    bufRead (bufWriteAll m a p) x = bufRead m x := by
  induction p generalizing m a with
  | nil => rfl
  | cons b p ih =>
    rw [List.length_cons] at hx
    rw [bufWriteAll, ih (by omega), bufRead_bufWrite_other m b (by omega)]

theorem bufRead_bufWriteAll_inside (m : Memory) (a : Nat) {k : Nat} (hk : k < p.length) :
    bufRead (bufWriteAll m a p) (a + k) = p[k]? := by
  induction p generalizing m a k with
  | nil => cases hk
  | cons b p ih =>
    cases k with
    | zero => rw [bufWriteAll, bufRead_bufWriteAll_outside (.inl (by omega))]; simp
    | succ k =>
      rw [bufWriteAll, List.getElem?_cons_succ, ← ih (bufWrite m a b) (a + 1) (Nat.lt_of_succ_lt_succ hk)]
      congr 1; omega

theorem cells_afterFrame (d : Decoder) (p : List Byte) (v : Byte) : cells (afterFrame d p v) p.length = p :=
  cells_eq_of_bufRead fun k hk => by simpa [afterFrame] using bufRead_bufWriteAll_inside d.buf 0 hk

/-- Cells above the payload read as before the frame. -/
theorem bufRead_afterFrame_above {a : Nat} (v : Byte) (ha : p.length ≤ a) :
    bufRead (afterFrame d p v).buf a = bufRead d.buf a :=
  bufRead_bufWriteAll_outside (.inr (by omega))

/-- Feeding the payload bytes that are still wanted: they go into the cells from the cursor on, and none completes. -/
theorem feeds_payload (hst : d.st = .receivingPayload) (hp : p ≠ []) (hlen : d.cur + p.length = d.len)
    (hcap : d.len ≤ P.rxCap) :
    feeds P d p = .ok ({ d with
      st := .awaitingChecksum, sum := d.sum + sum8 p, cur := d.len, buf := bufWriteAll d.buf d.cur p },
      List.replicate p.length .notComplete) := by
  induction p generalizing d with
  | nil => exact absurd rfl hp
  | cons b p ih =>
    rw [List.length_cons] at hlen
    rw [feeds_cons (feed_payload hst (by omega))]
    cases p with
    | nil =>
      have hlast : d.cur + 1 = d.len := hlen
      simp [hlast, bufWriteAll, Except.map]
    | cons b' p =>
      have hmore : d.cur + 1 ≠ d.len := by rw [List.length_cons] at hlen; omega
      have hrest := ih (d := { d with sum := d.sum + b, buf := bufWrite d.buf d.cur b, cur := d.cur + 1 }) hst
        (by simp) (by rw [← hlen]; exact Nat.add_right_comm ..) hcap
      rw [if_neg hmore, ← hst, hrest]
      simp [bufWriteAll, Except.map, BitVec.add_assoc, List.replicate_succ]

/-- R73: a frame of any declared payload that fits, with whatever trailer, is received whole, and its sum decides. -/
theorem feeds_frame {v : Byte} (hst : d.st = .awaitingHeader) (hp : p.length < P.rxCap) (hP : P.rxCap ≤ 256)
    (hv : sum8 (P.rxHeader :: lengthByte p.length :: (p ++ [c])) = v) :
    feeds P d (P.rxHeader :: lengthByte p.length :: (p ++ [c])) =
      .ok (afterFrame d p v, List.replicate (p.length + 2) Result.notComplete ++ [completionResult v]) := by
  have hbyte : (lengthByte p.length).toNat = p.length := toNat_lengthByte (by omega)
  have hbody : feeds P { d with
      st := if lengthByte p.length = 0 then .awaitingChecksum else .receivingPayload,
      sum := P.rxHeader + lengthByte p.length, len := p.length, cur := 0 } p =
      .ok ({ d with
        st := .awaitingChecksum, sum := P.rxHeader + lengthByte p.length + sum8 p,
        len := p.length, cur := p.length, buf := bufWriteAll d.buf 0 p }, List.replicate p.length .notComplete) := by
    cases p with
    | nil => simp [bufWriteAll, lengthByte]
    | cons b q =>
      have h0 : lengthByte (b :: q).length ≠ 0 := fun h => by rw [h] at hbyte; simp at hbyte
      rw [if_neg h0, feeds_payload rfl (by simp) (Nat.zero_add _) hp.le]
  rw [feeds_cons (feed_header hst), feeds_cons (feed_length_accepted rfl (by rw [hbyte]; exact hp)), hbyte,
    feeds_concat hbody (feed_checksum rfl), ← hv]
  simp [Except.map, afterFrame, BitVec.add_assoc, List.replicate_succ]

/-- Feeding bytes of which only the last completes a valid frame is waiting for it, and the bytes after it stay unfed
(R91). -/
theorem awaitValid_of_feeds (h : feeds P d w = .ok (e, rs ++ [Result.valid])) (hrs : ∀ r ∈ rs, r ≠ .valid)
    (v : List Byte) :
    awaitValid P d (w ++ v) = .ok ⟨e, rs ++ [Result.valid], v, true⟩ := by
  induction w generalizing d rs with
  | nil => simp at h
  | cons b w ih =>
    obtain ⟨d₁, r, rs', hb, hw, hcons⟩ := feeds_cons_ok h
    rw [List.cons_append]
    cases rs with
    | nil =>
      obtain ⟨rfl, rfl⟩ : Result.valid = r ∧ [] = rs' := by simpa using hcons
      obtain rfl : w = [] := List.length_eq_zero_iff.1 (length_feeds hw).symm
      cases hw
      exact awaitValid_valid hb v
    | cons r₀ rs =>
      obtain ⟨rfl, rfl⟩ : r₀ = r ∧ rs ++ [Result.valid] = rs' := by simpa using hcons
      rw [awaitValid_other hb (hrs _ List.mem_cons_self), ih hw fun r hr => hrs r (List.mem_cons_of_mem _ hr)]
      rfl

/-- A caller waiting at a scanning decoder receives the frame of any payload that fits, whatever comes behind it. -/
theorem awaitValid_frame (hst : d.st = .awaitingHeader) (hp : p.length < P.rxCap) (hP : P.rxCap ≤ 256)
    (v : List Byte) :
    awaitValid P d (frame P.rxHeader p ++ v) =
      .ok ⟨afterFrame d p 0, List.replicate (p.length + 2) Result.notComplete ++ [Result.valid], v, true⟩ :=
  awaitValid_of_feeds (feeds_frame hst hp hP (sum8_frame P.rxHeader p))
    (fun r hr => by simp [List.eq_of_mem_replicate hr]) v

end

/-! ### A whole response is reported -/

section
variable {P : Params} {d : Decoder} {n : Nat}

/-- A cell among those that show `p` shows its byte of `p`. -/
theorem cell_of_cells {p : List Byte} {k : Nat} {b : Byte} (h : cells d n = p) (hk : p[k]? = some b) :
    cell d k = b := by
  subst h
  simp only [cells, List.getElem?_map, Option.map_eq_some_iff] at hk
  obtain ⟨j, hj, rfl⟩ := hk
  obtain ⟨hlt, hkj⟩ := List.getElem?_eq_some_iff.1 hj
  rw [← hkj, List.getElem_range]

theorem fullRead_of_cells {r : FullPayload} (hP : 13 ≤ P.rxCap) (h : cells d n = fullPayloadBytes r) :
    fullRead P d = .ok { pm2_5 := r.pm2_5, pm1_0 := r.pm1_0, pm10 := r.pm10 } := by
  rw [fullRead_ok hP, cell_of_cells (k := 3) h rfl, cell_of_cells (k := 4) h rfl, cell_of_cells (k := 7) h rfl,
    cell_of_cells (k := 8) h rfl, cell_of_cells (k := 11) h rfl, cell_of_cells (k := 12) h rfl]
  simp only [be16_hiByte_loByte]

theorem pm25Read_of_cells {r : Pm25Payload} (hP : 5 ≤ P.rxCap) (h : cells d n = pm25PayloadBytes r) :
    pm25Read P d = .ok r.pm2_5 := by
  rw [pm25Read_ok hP, cell_of_cells (k := 3) h rfl, cell_of_cells (k := 4) h rfl, be16_hiByte_loByte]

/-- From a buffer that shows a full-measurement response the caller concludes its three fields (R91, R93). -/
theorem conclude_full {r : FullPayload} (hP : 13 ≤ P.rxCap) (h : cells d n = fullPayloadBytes r) :
    conclude P .fullMeasurement d = .ok (.full { pm2_5 := r.pm2_5, pm1_0 := r.pm1_0, pm10 := r.pm10 }) := by
  simp [conclude, echoRead_ok (P := P) (d := d) (by omega), cell_of_cells (k := 0) h rfl, fullRead_of_cells hP h,
    Except.map]

/-- From a buffer that shows a PM2.5-only response the caller concludes its field (R91, R94). -/
theorem conclude_pm25 {r : Pm25Payload} (hP : 5 ≤ P.rxCap) (h : cells d n = pm25PayloadBytes r) :
    conclude P .pm25Only d = .ok (.pm25 r.pm2_5) := by
  simp [conclude, echoRead_ok (P := P) (d := d) (by omega), cell_of_cells (k := 0) h rfl, pm25Read_of_cells hP h,
    Except.map]

/-- A response that fits, arriving on an empty line at a scanning decoder, is received whole, and the report is what the
caller concludes from a buffer that shows its payload. -/
theorem receiveResponse_fits {k : Command} {bs : List Byte} {s : State} {rep : Report}
    (hst : s.dec.st = .awaitingHeader) (hrx : s.line.rx = []) (hl : bs.length < 16)
    (hrep : conclude params k (afterFrame s.dec bs 0) = .ok rep) :
    receiveResponse k bs s = .next { s with
      dec := afterFrame s.dec bs 0
      results := List.replicate (bs.length + 2) Result.notComplete ++ [Result.valid]
      report := some rep } := by
  have hwait : awaitValid params s.dec (s.line.rx ++ frame params.rxHeader bs) =
      .ok ⟨afterFrame s.dec bs 0, List.replicate (bs.length + 2) Result.notComplete ++ [Result.valid], [], true⟩ := by
    rw [hrx, List.nil_append, ← List.append_nil (frame _ _)]
    exact awaitValid_frame hst hl (by decide) []
  have hline : ({ rx := [], tx := s.line.tx } : Line) = s.line := by rw [← hrx]
  simp only [receiveResponse, awaitResponse, arrive, hwait, hrep, if_true, hline]

end

/-- Settles O44: the frame fits and is received, and the buffer then shows the response the caller reads. -/
theorem fullResponseIsReported : Obligations.FullResponseIsReported := by
  intro s r hst hrx hl
  have hw : (Instr.rspFullMeasurement r).wf params = true := decide_eq_true (by omega)
  have hcells := cells_afterFrame s.dec (fullPayloadBytes r) 0
  refine ⟨afterFrame s.dec (fullPayloadBytes r) 0, ?_, rfl, rfl, rfl, rfl, rfl, hcells,
    fun a => bufRead_afterFrame_above 0⟩
  exact (onRow_applies hw rfl).trans (receiveResponse_fits hst hrx hl (conclude_full (by decide) hcells))

/-- Settles O45, as O44 for the shorter layout. -/
theorem pm25ResponseIsReported : Obligations.Pm25ResponseIsReported := by
  intro s r hst hrx hl
  have hw : (Instr.rspPm25Only r).wf params = true := decide_eq_true (by omega)
  have hcells := cells_afterFrame s.dec (pm25PayloadBytes r) 0
  refine ⟨afterFrame s.dec (pm25PayloadBytes r) 0, ?_, rfl, rfl, rfl, rfl, rfl, hcells,
    fun a => bufRead_afterFrame_above 0⟩
  exact (onRow_applies hw rfl).trans (receiveResponse_fits hst hrx hl (conclude_pm25 (by decide) hcells))

end Sys2Proof.Proofs
end

section
/-! PROOFS. The decoder's rules R61 to R76: what each byte class answers where its row applies, FEED as the class its
byte selects, and the acceptance, resynchronisation, length-bound and checksum-sensitivity theorems. -/

namespace Sys2Proof.Proofs

open Sys2Proof.Machine Sys2Proof.Laws

/-! ### The byte classes (R62 to R70) -/

/-- Settles O1. -/
theorem hdrSyncStartsTheAccumulator : Obligations.HdrSyncStartsTheAccumulator :=
  fun _ hst => onRow_applies rfl (decide_eq_true hst)

/-- Settles O2. -/
theorem hdrSkipWritesNothing : Obligations.HdrSkipWritesNothing :=
  fun _ _ hst hb => onRow_applies (decide_eq_true hb) (decide_eq_true hst)

/-- LEN.ACCEPT's condition on its byte (R64). -/
theorem wf_lenAccept {P : Params} {n : Byte} (h0 : 1 ≤ n.toNat) (hn : n.toNat < P.rxCap) :
    (Instr.lenAccept n).wf P = true := by
  have hne : n ≠ 0 := by rintro rfl; simp at h0
  simp only [Instr.wf, lengthAccepted, hne, hn, ne_eq, not_false_eq_true, decide_true, Bool.and_self]

/-- LEN.REJECT's condition on its byte (R66). -/
theorem wf_lenReject {P : Params} {n : Byte} (hn : P.rxCap ≤ n.toNat) : (Instr.lenReject n).wf P = true := by
  simp [Instr.wf, lengthAccepted, hn]

/-- Settles O3. -/
theorem lenAcceptOpensThePayload : Obligations.LenAcceptOpensThePayload :=
  fun _ _ hst h0 hn => onRow_applies (wf_lenAccept h0 hn) (decide_eq_true hst)

/-- Settles O5. -/
theorem lenRejectAborts : Obligations.LenRejectAborts :=
  fun _ _ hst hn => onRow_applies (wf_lenReject hn) (decide_eq_true hst)

section
variable {s : State} {b : Byte}

/-- Inside the buffer the shared payload store answers a next state: one cell, the sum and the cursor (R67, R68). -/
theorem payloadStored_inside (g : Tag) (hc : s.dec.cur < params.rxCap) :
    payloadStored s b g = .next { s with
      dec := { s.dec with
        sum := s.dec.sum + b, buf := bufWrite s.dec.buf s.dec.cur b, cur := s.dec.cur + 1, st := g }
      results := [.notComplete] } := by
  rw [payloadStored, memWrite_ok b hc]; rfl

theorem completionResult_eq_valid {v : Byte} : completionResult v = .valid ↔ v = 0 := by
  by_cases h : v = 0 <;> simp [completionResult, h]

/-- In AwaitingChecksum a trailer completes the frame validly exactly if it balances the sum (R69, R70). -/
theorem exec_feed_valid_iff (hst : s.dec.st = .awaitingChecksum) :
    (∃ u, exec (.feed b) s = .next u ∧ u.results = [.valid]) ↔ s.dec.sum + b = 0 := by
  rw [exec_feed, feed_checksum hst, ← completionResult_eq_valid]
  simp [fedOutcome]

end

/-- Settles O4: the sum after the trailer is 0x16 plus it, which only 0xEA balances. -/
theorem lenZeroSkipsThePayload : Obligations.LenZeroSkipsThePayload := by
  intro s hst
  have hexec : exec .lenZero s = exec (.feed 0) s := exec_eq_feed_of_rx rfl (by decide) (decide_eq_true hst)
  rw [hexec, exec_feed, feed_length_zero hst (by decide)]
  refine ⟨_, rfl, rfl, fun hsum c => ?_⟩
  rw [exec_feed_valid_iff rfl]
  show s.dec.sum + c = 0 ↔ c = 0xEA
  rw [hsum]
  constructor
  · intro h; bv_omega
  · rintro rfl; rfl

/-- Settles O6. -/
theorem payStoreStoresAtTheCursor : Obligations.PayStoreStoresAtTheCursor := by
  intro s b hst hcur hlen
  have hm : Instr.inMode s.dec.mode (.payStore b) = true :=
    Bool.and_eq_true_iff.2 ⟨decide_eq_true hst, decide_eq_true hcur.ne⟩
  refine (onRow_applies rfl hm).trans ?_
  rw [payloadStored_inside _ (show s.dec.cur < 16 by omega), ← hst]

/-- Settles O7. -/
theorem payLastClosesThePayload : Obligations.PayLastClosesThePayload := by
  intro s b hst hcur hlen
  have hm : Instr.inMode s.dec.mode (.payLast b) = true :=
    Bool.and_eq_true_iff.2 ⟨decide_eq_true hst, decide_eq_true hcur⟩
  exact ⟨_, (onRow_applies rfl hm).trans (payloadStored_inside _ (show s.dec.cur < 16 by omega)), rfl, hcur⟩

/-- Settles O8. -/
theorem chkValidCompletesTheFrame : Obligations.ChkValidCompletesTheFrame := by
  intro s c hst hsum
  have hm : Instr.inMode s.dec.mode (.chkValid c) = true :=
    Bool.and_eq_true_iff.2 ⟨decide_eq_true hst, decide_eq_true hsum⟩
  rw [← hsum]
  exact onRow_applies rfl hm

/-- Settles O9. -/
theorem chkInvalidDiscardsTheFrame : Obligations.ChkInvalidDiscardsTheFrame :=
  fun _ _ hst hsum => onRow_applies rfl (Bool.and_eq_true_iff.2 ⟨decide_eq_true hst, decide_eq_true hsum⟩)

/-! ### FEED -/

/-- Settles O10: the byte's class applies, and a class that applies is FEED of its byte. -/
theorem feedIsTheClassItsByteSelects : Obligations.FeedIsTheClassItsByteSelects := by
  intro s b
  obtain ⟨hw, hm⟩ := classify_applies params s.dec.mode b
  exact (exec_eq_feed_of_rx (encode_classify ..) hw hm).symm

/-- Settles O11. -/
theorem feedCompletesForEveryByte : Obligations.FeedCompletesForEveryByte := by
  intro s b hs
  obtain ⟨d, r, h⟩ := feed_succeeds_of_inv hs b
  exact ⟨d, r, by rw [exec_feed, h]; rfl, h⟩

theorem completionResult_valid_or_invalid (v : Byte) :
    completionResult v = .valid ∨ completionResult v = .invalid := by
  unfold completionResult; split_ifs <;> simp

/-- Settles O14: of the arms of R61 only the last answers a completion. -/
theorem onlyChecksumStepsComplete : Obligations.OnlyChecksumStepsComplete := by
  intro s t b h
  obtain ⟨d, r, hd, rfl⟩ := fedOutcome_next h
  rcases feed_cases hd with ⟨hst, -, rfl, -⟩ | ⟨hst, -, rfl, -⟩ | ⟨hst, -, rfl, -⟩ | ⟨hst, -, rfl, -⟩ |
    ⟨hst, -, rfl, -⟩ | ⟨hst, rfl, -⟩
  · simp [hst]
  · simp [hst]
  · simp [hst]
  · simp [hst]
  · simp [hst]
  · simpa [hst] using completionResult_valid_or_invalid _

/-- Settles O15: of the arms of R61 outside AwaitingHeader, those of a rejected length and of a trailer set that tag. -/
theorem onlyCompletionOrAbortReturnsToHeader : Obligations.OnlyCompletionOrAbortReturnsToHeader := by
  intro s t b h hne
  obtain ⟨d, r, hd, rfl⟩ := fedOutcome_next h
  rcases feed_cases hd with ⟨hst, -⟩ | ⟨hst, -⟩ | ⟨hst, hb, -, rfl⟩ | ⟨hst, hb, -, rfl⟩ | ⟨hst, -, -, rfl⟩ |
    ⟨hst, -, rfl⟩
  · exact absurd hst hne
  · exact absurd hst hne
  · have hb : b.toNat < 16 := hb
    simp only [hst]; split_ifs <;> simp [hb]
  · simp [hst, show 16 ≤ b.toNat from hb]
  · simp only [hst]; split_ifs <;> simp
  · simp [hst]

/-- Settles O16: both rows are the shared store. -/
theorem payloadStoreTouchesOneCell : Obligations.PayloadStoreTouchesOneCell := by
  intro s t b h
  obtain ⟨g, hg⟩ : ∃ g, payloadStored s b g = .next t := by
    rcases h with h | h
    all_goals
      obtain ⟨-, -, hstore⟩ := onRow_next h
      exact ⟨_, hstore⟩
  obtain ⟨-, rfl⟩ := payloadStored_next hg
  exact ⟨bufRead_bufWrite_same .., fun a ha => bufRead_bufWrite_other _ b ha⟩

/-! ### No fault from a sound state -/

/-- An instruction whose row's condition fails is refused. -/
theorem exec_refuses {i : Instr} {s : State} (h : i.wf params = false ∨ i.inMode s.dec.mode = false) :
    exec i s = .refused .rowConditionFails := by
  cases i with
  | feed | cmdFullMeasurement | cmdPm25Only | viewEcho | viewFullMeasurement | viewPm25Only =>
    simp [Instr.wf, Instr.inMode] at h
  | _ => exact onRow_refuses h

/-- Settles O18: from a sound state a row that applies completes, and one that does not is refused. -/
theorem noInstructionFaultsFromASoundState : Obligations.NoInstructionFaultsFromASoundState := by
  intro i s f hs h
  cases hw : i.wf params with
  | false => cases h.symm.trans (exec_refuses (.inl hw))
  | true =>
    cases hm : i.inMode s.dec.mode with
    | false => cases h.symm.trans (exec_refuses (.inr hm))
    | true =>
      obtain ⟨t, ht, -⟩ := exec_completes hs hw hm
      cases h.symm.trans ht

/-! ### The laws of the decoder (R73 to R75) -/

/-- The payload's cells read as the payload. -/
theorem bufRead_afterFrame_inside {d : Decoder} {p : List Byte} (v : Byte) {i : Nat} (hi : i < p.length) :
    bufRead (afterFrame d p v).buf i = p[i]? := by
  simpa [afterFrame] using bufRead_bufWriteAll_inside d.buf 0 hi

/-- Settles O26. -/
theorem framesAreAcceptedOrRejectedByTheirSum : Obligations.FramesAreAcceptedOrRejectedByTheirSum := by
  rintro P d p c ⟨-, hcap, -⟩ hst hp
  exact ⟨afterFrame d p _, feeds_frame hst hp hcap rfl, rfl, rfl, rfl, rfl,
    fun _ => bufRead_afterFrame_inside _, fun _ => bufRead_afterFrame_above _⟩

/-- Settles O27, by induction on the bytes: each is skipped. -/
theorem headerFreeBytesChangeNothing : Obligations.HeaderFreeBytesChangeNothing := by
  intro P d w hst hw
  induction w with
  | nil => exact feeds_nil
  | cons b w ih =>
    obtain ⟨hb, hw⟩ := List.forall_mem_cons.1 hw
    rw [feeds_cons (feed_skip hst hb), ih hw]; rfl

/-- Settles O28: the bound on the written cells is part of the invariant, which feeding keeps. -/
theorem noBytesWritePastTheBuffer : Obligations.NoBytesWritePastTheBuffer := by
  intro P d _ hd
  refine ⟨fun b hst hb => ⟨_, feed_length_rejected hst hb, rfl⟩, fun w => ?_⟩
  obtain ⟨e, rs, h⟩ := feeds_succeeds_of_inv hd w
  exact ⟨e, rs, h, (feeds_keeps_inv hd h).bufBound⟩

/-! ### Single bit errors (R76) -/

/-- A flipped bit changes the byte. -/
theorem xor_bit_ne {j : Nat} (b : Byte) (hj : j < 8) : b ^^^ BitVec.ofNat 8 (2 ^ j) ≠ b := by
  have hbit : ∀ j < 8, BitVec.ofNat 8 (2 ^ j) ≠ 0 := by decide
  exact fun h => hbit j hj (by simpa using congrArg (b ^^^ ·) h)

/-- The sum sees every change of a single byte: addition mod 256 cancels. -/
theorem sum8_modify_ne {f : Byte → Byte} (hf : ∀ b, f b ≠ b) {bs : List Byte} {k : Nat} (hk : k < bs.length) :
    sum8 (bs.modify k f) ≠ sum8 bs := by
  induction bs generalizing k with
  | nil => cases hk
  | cons b bs ih =>
    cases k with
    | zero => simpa [BitVec.add_left_inj] using hf b
    | succ k => simpa [BitVec.add_right_inj] using ih (Nat.lt_of_succ_lt_succ hk)

/-- R76 (a): the frame with a changed byte behind its length keeps its framing, and its sum is no longer 0. -/
theorem feeds_frame_modified {P : Params} {d : Decoder} {p q : List Byte} {c x : Byte} {f : Byte → Byte} {k : Nat}
    (hP : P.rxCap ≤ 256) (hst : d.st = .awaitingHeader) (hp : p.length < P.rxCap)
    (hsum : sum8 (P.rxHeader :: lengthByte p.length :: (p ++ [c])) = 0) (hf : ∀ b, f b ≠ b) (hk : k ≤ p.length)
    (hq : q.length = p.length) (hqx : q ++ [x] = (p ++ [c]).modify k f) :
    ∃ e, feeds P d (P.rxHeader :: lengthByte p.length :: (q ++ [x])) =
      .ok (e, List.replicate (p.length + 2) Result.notComplete ++ [.invalid]) := by
  have hbad : sum8 (P.rxHeader :: lengthByte q.length :: (q ++ [x])) ≠ 0 := by
    have hne : sum8 (q ++ [x]) ≠ sum8 (p ++ [c]) := by
      rw [hqx]; exact sum8_modify_ne hf (by simp only [List.length_append, List.length_singleton]; omega)
    rw [← hsum, hq, sum8_cons, sum8_cons, sum8_cons, sum8_cons]
    simpa only [ne_eq, BitVec.add_right_inj] using hne
  have hfeeds := feeds_frame (c := x) hst (hq ▸ hp) hP rfl
  rw [completionResult, if_neg hbad, hq] at hfeeds
  exact ⟨_, hfeeds⟩

/-- Settles O29: (a) the flipped bit changes the sum; (b) what is no header is skipped; (c) the shorter frame is
accepted, and the two bytes after it are skipped. -/
theorem singleBitErrorsAreSeen : Obligations.SingleBitErrorsAreSeen := by
  refine ⟨?_, ?_, fun d hst => ⟨?_, ?_⟩⟩
  · rintro P d p c k j q x ⟨-, hcap, -⟩ hst hp hsum hj hk hq hqx
    exact feeds_frame_modified hcap hst hp hsum (xor_bit_ne · hj) hk hq hqx
  · intro P d w j hst hj
    exact feeds_cons (feed_skip hst (xor_bit_ne _ hj)) w
  · exact ⟨_, feeds_frame (P := params) (p := [0xEA, 0x00]) (c := 0xFE) hst (by decide) (by decide) rfl⟩
  · have hshort := feeds_frame (P := params) (p := []) (c := 0xEA) hst (by decide) (by decide) rfl
    have hrest := headerFreeBytesChangeNothing params (afterFrame d [] 0) [0x00, 0xFE] rfl (by decide)
    exact ⟨_, (feeds_append hshort _).trans (congrArg (Except.map _) hrest)⟩

/-! ### FRAME.RESPONSE -/

/-- Settles O41: the frame is fed as it stands; with a payload that fits it is the acceptance theorem's frame of sum 0,
and a sound decoder takes the bytes of any. -/
theorem responseFrameIsReceived : Obligations.ResponseFrameIsReceived := by
  intro s n p c hw
  have hexec : exec (.frameResponse n p c) s = feedBytes (params.rxHeader :: n :: (p ++ [c])) s := onRow_applies hw rfl
  rw [hexec]
  constructor
  · intro hst hn
    obtain ⟨hlen, hsum⟩ : p.length = n.toNat ∧ sum8 (params.rxHeader :: n :: (p ++ [c])) = 0 := by
      simpa only [Instr.wf, frameWellFormed, Bool.and_eq_true, decide_eq_true_eq] using hw
    have hbyte : lengthByte p.length = n := by rw [hlen, lengthByte_toNat]
    rw [← hbyte] at hsum ⊢
    exact ⟨afterFrame s.dec p 0, feedBytes_ok (feeds_frame hst (hlen ▸ hn) (by decide) hsum), rfl, rfl, rfl, rfl, rfl,
      fun _ => bufRead_afterFrame_inside 0, fun _ => bufRead_afterFrame_above 0⟩
  · intro hs
    obtain ⟨d, rs, h⟩ := feeds_succeeds_of_inv hs (params.rxHeader :: n :: (p ++ [c]))
    exact ⟨d, rs, h, by simpa using length_feeds h, feedBytes_ok h⟩

end Sys2Proof.Proofs
end

section
/-! PROOFS. The encoder's rules R81 to R90: the checksum generator, what ENCODE answers on either side of the capacity,
the frames it returns and what the decoder makes of them, and the two command frames. -/

namespace Sys2Proof.Proofs

open Sys2Proof.Machine Sys2Proof.Laws

/-! ### The checksum (R84, R85) -/

/-- Settles O36: the generator's byte balances the sum, and a byte that does is the sum's negative. -/
theorem checksumIsTheOnlyBalancingByte : Obligations.ChecksumIsTheOnlyBalancingByte :=
  fun s => ⟨rfl, sum8_append_chk s, fun _ hc => eq_neg8_of_add_eq_zero (by simpa using hc)⟩

/-- Settles O35. -/
theorem encodedFramesSumToZero : Obligations.EncodedFramesSumToZero := by
  intro P p f hf
  obtain ⟨-, rfl⟩ := encoder_frame hf
  exact sum8_frame P.txHeader p

/-! ### The length byte (R88) -/

/-- Settles O37: a payload that fits a legal TX_CAP has at most 255 bytes, which the length byte holds. -/
theorem encodedLengthByteIsTrue : Obligations.EncodedLengthByteIsTrue := by
  rintro P p f ⟨-, -, -, hcap, -⟩ hf
  obtain ⟨hfits, rfl⟩ := encoder_frame hf
  have hlen : p.length ≤ 255 := by omega
  have hbyte : (lengthByte p.length).toNat = p.length := toNat_lengthByte (by omega)
  exact ⟨congrArg some hbyte, by omega, hlen, length_frame P.txHeader p⟩

/-! ### The round trip (R86) -/

/-- Settles O39: a frame that fits the decoder is the acceptance theorem's with sum 0; the encoder's own is skipped. -/
theorem roundTripHoldsForTheFormat : Obligations.RoundTripHoldsForTheFormat := by
  rintro P d p ⟨-, hcap, -⟩ hst
  refine ⟨encoder_fits, fun hp => ?_, fun f _ hf => headerFreeBytesChangeNothing P d f hst hf⟩
  exact ⟨afterFrame d p 0, feeds_frame hst hp hcap (sum8_frame P.rxHeader p), cells_afterFrame d p 0⟩

/-! ### ENCODE (R82, R83) -/

section
variable {s : State} {p : List Byte}

/-- ENCODE.OK where its row applies: the payload's frame is returned, and nothing else changes. -/
theorem exec_encodeOk (h : p.length + 3 ≤ params.txCap) :
    exec (.encodeOk p) s = .next { s with enc := some (.frame (frame params.txHeader p)) } := by
  rw [← encoder_fits h]
  exact onRow_applies (decide_eq_true h) rfl

/-- ENCODE.OVERFLOW where its row applies: the error is returned, and nothing else changes. -/
theorem exec_encodeOverflow (h : params.txCap < p.length + 3) :
    exec (.encodeOverflow p) s = .next { s with enc := some .overflow } := by
  have hw : (Instr.encodeOverflow p).wf params = true := by
    rw [Instr.wf, encoderAccepts, decide_eq_false h.not_ge]; rfl
  rw [← encoder_overflows h]
  exact onRow_applies hw rfl

/-- A payload that fits is written to the transport as its frame (R90). -/
theorem transmit_fits {P : Params} (h : p.length + 3 ≤ P.txCap) :
    transmit P s p = { s with
      enc := some (.frame (frame P.txHeader p)), line := { s.line with tx := s.line.tx ++ frame P.txHeader p } } := by
  rw [transmit, encoder_fits h]

end

/-- Settles O33. -/
theorem encodeReturnsTheFrame : Obligations.EncodeReturnsTheFrame := fun _ _ => exec_encodeOk

/-- Settles O34. -/
theorem encodeRefusesOversizedPayloads : Obligations.EncodeRefusesOversizedPayloads := fun _ _ => exec_encodeOverflow

/-! ### The two request frames (R89, R90) -/

/-- The full-measurement request on the wire. -/
theorem frame_fullMeasurement :
    frame params.txHeader (commandPayload .fullMeasurement) = [0x11, 0x01, 0x02, 0xEC] := by decide

/-- The PM2.5-only request on the wire. -/
theorem frame_pm25Only : frame params.txHeader (commandPayload .pm25Only) = [0x11, 0x02, 0x0B, 0x01, 0xE1] := by decide

/-- Settles O38: instances of ENCODE.OK at the command payloads. -/
theorem requestFramesAreTheWireConstants : Obligations.RequestFramesAreTheWireConstants := by
  intro s
  rw [← frame_fullMeasurement, ← frame_pm25Only]
  exact ⟨exec_encodeOk (by decide), exec_encodeOk (by decide)⟩

/-- Settles O43: a command row transmits its payload, which fits. -/
theorem commandsAreEncodedAndWritten : Obligations.CommandsAreEncodedAndWritten := by
  intro s
  rw [← frame_fullMeasurement, ← frame_pm25Only]
  exact ⟨congrArg Host.Outcome.next (transmit_fits (by decide)),
    congrArg Host.Outcome.next (transmit_fits (by decide))⟩

end Sys2Proof.Proofs
end

section
/-! PROOFS. The payload views and the caller's contract (R91 to R94): what a view reads, what the caller concludes from
the payload cells, and what waiting for a valid frame comes to. -/

namespace Sys2Proof.Proofs

open Sys2Proof.Machine Sys2Proof.Laws

/-! ### The views (R92 to R94) -/

/-- Settles O49: the three reads stay inside the buffer, and a field is its big-endian value. -/
theorem fullViewReadsTheThreeFields : Obligations.FullViewReadsTheThreeFields := by
  intro s
  refine ⟨_, _, _, ?_, toNat_be16 .., toNat_be16 .., toNat_be16 ..⟩
  rw [exec_viewFullMeasurement, fullRead_ok (by decide)]
  rfl

/-- Settles O50, as O49 for its one field. -/
theorem pm25ViewReadsOneField : Obligations.Pm25ViewReadsOneField := by
  intro s
  refine ⟨_, ?_, toNat_be16 ..⟩
  rw [exec_viewPm25Only, pm25Read_ok (by decide)]
  rfl

/-! ### What the caller concludes (R91 (d) and (e)) -/

section
variable {c : Command} {d : Decoder}

/-- A wrong echo decides the request (R105). -/
theorem conclude_other_echo (h : cell d 0 ≠ commandCode c) :
    conclude params c d = .ok (.failed .cmdMismatch) := by
  simp [conclude, echoRead_ok (P := params) (d := d) (by decide), h]

/-- With the right echo the caller extracts the three fields (R93). -/
theorem conclude_full_echo (h : cell d 0 = commandCode .fullMeasurement) :
    conclude params .fullMeasurement d = .ok (.full
      { pm2_5 := be16 (cell d 3) (cell d 4), pm1_0 := be16 (cell d 7) (cell d 8),
        pm10 := be16 (cell d 11) (cell d 12) }) := by
  simp [conclude, echoRead_ok (P := params) (d := d) (by decide), h,
    fullRead_ok (P := params) (d := d) (by decide), Except.map]

/-- With the right echo the caller extracts the one field (R94). -/
theorem conclude_pm25_echo (h : cell d 0 = commandCode .pm25Only) :
    conclude params .pm25Only d = .ok (.pm25 (be16 (cell d 3) (cell d 4))) := by
  simp [conclude, echoRead_ok (P := params) (d := d) (by decide), h,
    pm25Read_ok (P := params) (d := d) (by decide), Except.map]

/-- The echo check decides between a mismatch and the fields. -/
theorem conclude_mismatch_iff :
    conclude params c d = .ok (.failed .cmdMismatch) ↔ cell d 0 ≠ commandCode c := by
  refine ⟨fun h he => ?_, conclude_other_echo⟩
  cases c with
  | fullMeasurement => cases (conclude_full_echo he).symm.trans h
  | pm25Only => cases (conclude_pm25_echo he).symm.trans h

end

/-- Settles O48. -/
theorem echoViewReadsCellZero : Obligations.EchoViewReadsCellZero := by
  intro s
  refine ⟨?_, fun c => conclude_mismatch_iff⟩
  rw [exec_viewEcho, echoRead_ok (by decide)]
  rfl

/-! ### Waiting for a valid frame (R91 (c)) -/

section
variable {P : Params} {d : Decoder} {w : List Byte} {a : Await}

/-- Everything waiting can do with its first byte: stop at a VALID result, or go on with the rest. -/
theorem awaitValid_cons_ok {b : Byte} (h : awaitValid P d (b :: w) = .ok a) :
    ∃ e r, feed P d b = .ok (e, r) ∧
      (r = .valid ∧ a = ⟨e, [.valid], w, true⟩ ∨
        r ≠ .valid ∧ ∃ a', awaitValid P e w = .ok a' ∧ a = { a' with results := r :: a'.results }) := by
  cases hb : feed P d b with
  | error x => simp [awaitValid, hb] at h
  | ok o =>
    obtain ⟨e, r⟩ := o
    refine ⟨e, r, rfl, ?_⟩
    by_cases hr : r = .valid
    · subst hr
      rw [awaitValid_valid hb] at h
      cases h
      exact .inl ⟨rfl, rfl⟩
    · rw [awaitValid_other hb hr] at h
      cases hw : awaitValid P e w with
      | error x => simp [hw, Except.map] at h
      | ok a' =>
        rw [hw] at h
        cases h
        exact .inr ⟨hr, a', rfl, rfl⟩

/-- A frame was received at the first VALID result, which is the last one recorded. -/
theorem awaitValid_gotFrame (h : awaitValid P d w = .ok a) (hg : a.gotFrame = true) :
    ∃ rs, a.results = rs ++ [.valid] ∧ .valid ∉ rs := by
  induction w generalizing d a with
  | nil => cases h; cases hg
  | cons b w ih =>
    obtain ⟨e, r, -, ⟨-, rfl⟩ | ⟨hr, a', hw, rfl⟩⟩ := awaitValid_cons_ok h
    · exact ⟨[], rfl, List.not_mem_nil⟩
    · obtain ⟨rs, hrs, hnot⟩ := ih hw hg
      exact ⟨r :: rs, congrArg (r :: ·) hrs, List.not_mem_cons_of_ne_of_not_mem hr.symm hnot⟩

/-- Without a frame every byte was fed and no result is VALID. -/
theorem awaitValid_noFrame (h : awaitValid P d w = .ok a) (hg : a.gotFrame = false) :
    a.unfed = [] ∧ .valid ∉ a.results := by
  induction w generalizing d a with
  | nil => cases h; exact ⟨rfl, List.not_mem_nil⟩
  | cons b w ih =>
    obtain ⟨e, r, -, ⟨-, rfl⟩ | ⟨hr, a', hw, rfl⟩⟩ := awaitValid_cons_ok h
    · cases hg
    · obtain ⟨hunfed, hnot⟩ := ih hw hg
      exact ⟨hunfed, List.not_mem_cons_of_ne_of_not_mem hr.symm hnot⟩

/-- Header-free garbage before a frame is passed by, and the frame is the first VALID result (R74, R91). -/
theorem awaitValid_headerFree_frame {junk p : List Byte} (hst : d.st = .awaitingHeader)
    (hjunk : ∀ b ∈ junk, b ≠ P.rxHeader) (hp : p.length < P.rxCap) (hP : P.rxCap ≤ 256) (v : List Byte) :
    awaitValid P d (junk ++ frame P.rxHeader p ++ v) =
      .ok ⟨afterFrame d p 0, List.replicate (junk.length + (p.length + 2)) Result.notComplete ++ [Result.valid],
        v, true⟩ := by
  have hframe : feeds P d (frame P.rxHeader p) =
      .ok (afterFrame d p 0, List.replicate (p.length + 2) Result.notComplete ++ [Result.valid]) :=
    feeds_frame hst hp hP (sum8_frame P.rxHeader p)
  have hfeeds : feeds P d (junk ++ frame P.rxHeader p) =
      .ok (afterFrame d p 0,
        List.replicate (junk.length + (p.length + 2)) Result.notComplete ++ [Result.valid]) := by
    rw [feeds_append (headerFreeBytesChangeNothing P d junk hst hjunk), hframe]
    simp only [Except.map, ← List.append_assoc, List.replicate_append_replicate]
  exact awaitValid_of_feeds hfeeds (fun r hr => by simp [List.eq_of_mem_replicate hr]) v

end

/-- Settles O47. -/
theorem awaitingFeedsUpToTheFirstValid : Obligations.AwaitingFeedsUpToTheFirstValid := by
  intro P d w a h
  obtain ⟨fed, hw, hfed⟩ := awaitValid_feeds h
  exact ⟨fed, hw, hfed, awaitValid_gotFrame h, awaitValid_noFrame h⟩

/-! ### Response rows -/

/-- From a sound state an arriving response is awaited with the bytes before it, and the caller concludes from the first
valid frame. -/
theorem receiveResponse_of_inv {s : State} (hs : s.Inv) (c : Command) (payload : List Byte) :
    ∃ (a : Await) (rep : Option Report),
      awaitValid params s.dec (s.line.rx ++ frame params.rxHeader payload) = .ok a ∧
      receiveResponse c payload s = .next { s with
        dec := a.dec, results := a.results, line := { s.line with rx := a.unfed }, report := rep } ∧
      (a.gotFrame = true → ∃ r, conclude params c a.dec = .ok r ∧ rep = some r) ∧
      (a.gotFrame = false → rep = s.report) := by
  obtain ⟨a, ha⟩ := awaitValid_succeeds_of_inv hs (s.line.rx ++ frame params.rxHeader payload)
  obtain ⟨rep, hnext, hgot, hnone⟩ :=
    awaitResponse_next (s := arrive s (frame params.rxHeader payload)) (c := c) (ifNone := s.report) ha
  exact ⟨a, rep, ha, hnext, hgot, hnone⟩

/-- Settles O46: a well-formed response row is its response arriving; a mismatch is the caller's conclusion. -/
theorem responsesCompleteFromSoundStates : Obligations.ResponsesCompleteFromSoundStates := by
  intro s i c payload hi hw hs
  have hexec : exec i s = receiveResponse c payload s := by
    rcases hi with ⟨r, rfl, rfl, rfl⟩ | ⟨r, rfl, rfl, rfl⟩
    · exact onRow_applies hw rfl
    · exact onRow_applies hw rfl
  obtain ⟨a, rep, ha, hnext, hgot, hnone⟩ := receiveResponse_of_inv hs c payload
  refine ⟨a, rep, ha, hexec.trans hnext, fun hg => ?_, hnone⟩
  obtain ⟨r, hr, hrep⟩ := hgot hg
  exact ⟨r, hr, hrep, fun hne => Except.ok.inj (hr.symm.trans (conclude_other_echo hne))⟩

/-! ### Requests (R91, R97) -/

/-- Both commands fit the encoder. -/
theorem commandPayload_fits (c : Command) : (commandPayload c).length + 3 ≤ params.txCap := by cases c <;> decide

/-- A request writes its frame, feeds the received bytes up to the first valid frame and concludes from it, or times out
without one. -/
theorem request_next {s : State} {c : Command} {a : Await} (ha : awaitValid params s.dec s.line.rx = .ok a) :
    ∃ rep : Option Report,
      request params c s = .next { s with
        dec := a.dec
        results := a.results
        enc := some (.frame (frame params.txHeader (commandPayload c)))
        line := { rx := a.unfed, tx := s.line.tx ++ frame params.txHeader (commandPayload c) }
        report := rep } ∧
      (a.gotFrame = true → ∃ r, conclude params c a.dec = .ok r ∧ rep = some r) ∧
      (a.gotFrame = false → rep = some (.failed .timeout)) := by
  have hsent := transmit_fits (s := s) (commandPayload_fits c)
  have ha' : awaitValid params (transmit params s (commandPayload c)).dec
      (transmit params s (commandPayload c)).line.rx = .ok a := by rwa [transmit_dec, transmit_rx]
  obtain ⟨rep, hnext, hgot, hnone⟩ := awaitResponse_next (c := c) (ifNone := some (.failed .timeout)) ha'
  refine ⟨rep, ?_, hgot, hnone⟩
  rw [request, encoder_fits (commandPayload_fits c)]
  exact hnext.trans (by rw [hsent])

/-! ### Fields of a payload the buffer shows -/

section
variable {d : Decoder} {p : List Byte} {k : Nat}

theorem getElem?_of_cells (h : cells d p.length = p) (hk : k < p.length) : p[k]? = some (cell d k) := by
  rw [List.getElem?_eq_getElem hk, cell_of_cells h (List.getElem?_eq_getElem hk)]

/-- The two bytes of a field are those of its two cells. -/
theorem field_of_cells (h : cells d p.length = p) (hk : k + 1 < p.length) :
    (p[k]?).bind (fun x => (p[k + 1]?).map (be16 x)) = some (be16 (cell d k) (cell d (k + 1))) := by
  rw [getElem?_of_cells h hk, getElem?_of_cells h (Nat.lt_of_succ_lt hk)]
  rfl

theorem head?_of_cells (h : cells d p.length = p) (hp : 0 < p.length) : p.head? = some (cell d 0) := by
  rw [List.head?_eq_getElem?, getElem?_of_cells h hp]

/-- A payload that starts with a byte shows it in cell 0. -/
theorem cell_zero_of_head? {b : Byte} (h : cells d p.length = p) (hb : p.head? = some b) : cell d 0 = b :=
  cell_of_cells h (List.head?_eq_getElem? ▸ hb)

end

/-- Settles O53: the request awaits the frame behind the garbage, after which the buffer shows its payload; the report
is what the caller concludes from those cells. -/
theorem firstValidFrameDecidesTheRequest : Obligations.FirstValidFrameDecidesTheRequest := by
  intro s c wire rest junk p after hin hwire hst hjunk hp hrx
  have hsent : frame params.txHeader (commandPayload c) = wire := by
    rcases hwire with ⟨rfl, rfl⟩ | ⟨rfl, rfl⟩
    · exact frame_fullMeasurement
    · exact frame_pm25Only
  have hwait := awaitValid_headerFree_frame (P := params) hst hjunk hp (by decide) after
  obtain ⟨rep, hnext, hgot, -⟩ :=
    request_next (s := { s with inputs := rest }) (c := c) ((congrArg (awaitValid params s.dec) hrx).trans hwait)
  obtain ⟨r, hr, rfl⟩ := hgot rfl
  have hcells := cells_afterFrame s.dec p 0
  refine ⟨afterFrame s.dec p 0, r, ?_, rfl, rfl, rfl, rfl, rfl, hcells, fun a => bufRead_afterFrame_above 0, hr,
    fun hlen hne => ?_, ?_, ?_⟩
  · rw [step_of_cons hin, ← hsent]
    exact hnext
  · rw [head?_of_cells hcells hlen, ne_eq, Option.some.injEq] at hne
    exact Except.ok.inj (hr.symm.trans (conclude_other_echo hne))
  · rintro hecho rfl hlen
    exact ⟨_, Except.ok.inj (hr.symm.trans (conclude_full_echo (cell_zero_of_head? hcells hecho))),
      field_of_cells hcells (by omega), field_of_cells hcells (by omega), field_of_cells hcells (by omega)⟩
  · rintro hecho rfl hlen
    exact ⟨_, Except.ok.inj (hr.symm.trans (conclude_pm25_echo (cell_zero_of_head? hcells hecho))),
      field_of_cells hcells (by omega)⟩

end Sys2Proof.Proofs
end

section
/-! PROOFS. The error conditions (R100 to R108): the state each one leaves, and the request that ends without a valid
frame. -/

namespace Sys2Proof.Proofs

open Sys2Proof.Machine Sys2Proof.Laws

/-! ### The precise state of an error (R108) -/

section
variable {s t : State}

/-- LEN.REJECT leaves the header's byte plus its own as the sum: the invariant says what the sum was. -/
theorem exec_lenReject_dec {n : Byte} (hs : s.Inv) (h : exec (.lenReject n) s = .next t) :
    t.dec = { s.dec with st := .awaitingHeader, sum := params.rxHeader + n } := by
  obtain ⟨-, hm⟩ := exec_next_applies h
  rw [onRow_next_eq h, ← hs.lengthSum (of_decide_eq_true hm)]
  rfl

/-- CHK.INVALID leaves the whole frame's sum, which is not 0, and all else of the decoder. -/
theorem exec_chkInvalid_dec {c : Byte} (h : exec (.chkInvalid c) s = .next t) :
    s.dec.st = .awaitingChecksum ∧ s.dec.sum + c ≠ 0 ∧
      t.dec = { s.dec with st := .awaitingHeader, sum := s.dec.sum + c } := by
  obtain ⟨-, hm⟩ := exec_next_applies h
  obtain ⟨hst, hsum⟩ := Bool.and_eq_true_iff.1 hm
  exact ⟨of_decide_eq_true hst, of_decide_eq_true hsum, congrArg State.dec (onRow_next_eq h)⟩

end

/-- Settles O21: the invariant gives the sum before a rejected length, and the cursor before the trailer. -/
theorem errorsLeaveThePreciseState : Obligations.ErrorsLeaveThePreciseState := by
  intro s hs
  refine ⟨fun n t h => exec_lenReject_dec hs h, fun c t h => ?_, fun p t h => ?_⟩
  · obtain ⟨hst, hsum, hdec⟩ := exec_chkInvalid_dec h
    obtain ⟨hcur, -⟩ := hs.checksum hst
    rw [hdec]
    exact ⟨rfl, hsum, rfl, hcur, rfl⟩
  · rw [onRow_next_eq h]

/-! ### A request without a valid frame (R104) -/

/-- The two requests on the wire (R89). -/
theorem frame_command_eq {c : Command} {wire : List Byte}
    (h : c = .fullMeasurement ∧ wire = [0x11, 0x01, 0x02, 0xEC] ∨
      c = .pm25Only ∧ wire = [0x11, 0x02, 0x0B, 0x01, 0xE1]) :
    frame params.txHeader (commandPayload c) = wire := by
  rcases h with ⟨rfl, rfl⟩ | ⟨rfl, rfl⟩
  · exact frame_fullMeasurement
  · exact frame_pm25Only

/-- A request that finds no valid frame has read every byte and reports E_TIMEOUT. -/
theorem request_noFrame {s : State} {c : Command} {a : Await} (ha : awaitValid params s.dec s.line.rx = .ok a)
    (hg : a.gotFrame = false) :
    request params c s = .next { s with
      dec := a.dec
      results := a.results
      enc := some (.frame (frame params.txHeader (commandPayload c)))
      line := { rx := [], tx := s.line.tx ++ frame params.txHeader (commandPayload c) }
      report := some (.failed .timeout) } := by
  obtain ⟨rep, hnext, -, hnone⟩ := request_next (c := c) ha
  obtain ⟨hunfed, -⟩ := awaitValid_noFrame ha hg
  rw [hnext, hnone hg, hunfed]

/-- Settles O52: waiting in vain feeds every byte and sees no VALID result; a silent line is the wait for no byte. -/
theorem silentLineTimesOut : Obligations.SilentLineTimesOut := by
  intro s c wire rest hin hwire
  have hstep {a : Await} (ha : awaitValid params s.dec s.line.rx = .ok a) (hg : a.gotFrame = false) :=
    (step_of_cons hin).trans (request_noFrame (s := { s with inputs := rest }) (c := c) ha hg)
  rw [frame_command_eq hwire] at hstep
  refine ⟨fun a ha hg => ?_, fun hrx => ?_⟩
  · obtain ⟨fed, hfed, hfeeds⟩ := awaitValid_feeds ha
    obtain ⟨hunfed, hnot⟩ := awaitValid_noFrame ha hg
    rw [hunfed, List.append_nil] at hfed
    exact ⟨hfed ▸ hfeeds, hnot, hstep ha hg⟩
  · have hsilent : awaitValid params s.dec s.line.rx = .ok ⟨s.dec, [], [], false⟩ := by rw [hrx]; rfl
    exact hstep hsilent rfl

end Sys2Proof.Proofs
end

section
/-! PROOFS. Reset and hazards: the attempt that a timeout leaves behind (R125), what the sum does not see (R130), and
the clock and port bindings (R132, R134, R135). -/

namespace Sys2Proof.Proofs

open Sys2Proof.Machine Sys2Proof.Laws

/-! ### An abandoned attempt (R125, R78) -/

theorem completionResult_ne_notComplete (v : Byte) : completionResult v ≠ .notComplete := by
  rcases completionResult_valid_or_invalid v with h | h
  · simp [h]
  · simp [h]

/-- The bytes still wanted and one more, whatever they are, end the attempt: the payload is filled, then the last byte
is taken for the trailer. -/
theorem feeds_payload_trailer {P : Params} {d : Decoder} {p : List Byte} (c : Byte) (hst : d.st = .receivingPayload)
    (hp : p ≠ []) (hlen : d.cur + p.length = d.len) (hcap : d.len ≤ P.rxCap) :
    feeds P d (p ++ [c]) = .ok ({ d with
      st := .awaitingHeader, sum := d.sum + sum8 p + c, cur := d.len, buf := bufWriteAll d.buf d.cur p },
      List.replicate p.length Result.notComplete ++ [completionResult (d.sum + sum8 p + c)]) :=
  feeds_concat (feeds_payload hst hp hlen hcap) (feed_checksum rfl)

/-- Settles O31: the swallowed bytes are the missing payload and, last, the trailer. -/
theorem leftoverAttemptSwallowsBytes : Obligations.LeftoverAttemptSwallowsBytes := by
  intro P d w hst hcur hcap hw
  obtain ⟨p, c, rfl⟩ : ∃ p c, w = p ++ [c] :=
    (List.eq_nil_or_concat' w).resolve_left fun h => by simp [h] at hw
  have hp : p.length = d.len - d.cur := by simpa using hw
  have hne : p ≠ [] := List.ne_nil_of_length_pos (by omega)
  rw [← hp]
  exact ⟨_, _, feeds_payload_trailer c hst hne (by omega) hcap.le, completionResult_ne_notComplete _, rfl, rfl, rfl⟩

/-! ### The order of the payload bytes (R130) -/

/-- Settles O32: the reordered frame has the same length byte and the same sum, so it is received as the frame it is. -/
theorem reorderedPayloadStaysValid : Obligations.ReorderedPayloadStaysValid := by
  rintro P d p q c ⟨-, hcap, -⟩ hst hp hpq hsum
  rw [hpq.length_eq] at hp hsum ⊢
  have hsum' : sum8 (P.rxHeader :: lengthByte q.length :: (q ++ [c])) = 0 := by
    simpa [sum8_perm hpq, BitVec.add_assoc] using hsum
  exact ⟨afterFrame d q 0, feeds_frame hst hp hcap hsum', cells_afterFrame d q 0⟩

/-! ### The encoder's ports (R135) -/

section
variable {P : Params} {e e' : EncoderPorts P}

theorem frameLen_eq (e : EncoderPorts P) :
    frameLen e = if e.cmdLen.toNat + 3 ≤ P.txCap then e.cmdLen.toNat + 3 else 0 := by
  simp only [frameLen, encOk_iff]

theorem encodePorts_eq (e : EncoderPorts P) :
    encodePorts e =
      if e.cmdLen.toNat + 3 ≤ P.txCap then .frame (frame P.txHeader (portPayload e)) else .overflow := by
  split_ifs with h
  · exact encodePorts_fits h
  · exact encodePorts_overflows (Nat.not_le.1 h)

theorem frameAt_fits (h : e.cmdLen.toNat + 3 ≤ P.txCap) (j : Nat) :
    frameAt e j = (frame P.txHeader (portPayload e))[j]? := by
  rw [frameAt, encodePorts_fits h]

/-- `enc_ok` and `frame_len` are functions of `cmd_len` alone. -/
theorem encOk_congr (hl : e'.cmdLen = e.cmdLen) : encOk e' = encOk e := by rw [encOk, encOk, hl]

theorem frameLen_congr (hl : e'.cmdLen = e.cmdLen) : frameLen e' = frameLen e := by rw [frameLen_eq, frameLen_eq, hl]

/-- The frame's bytes are a function of `cmd_len` and the operand. -/
theorem frameAt_congr (hl : e'.cmdLen = e.cmdLen) (hp : portPayload e' = portPayload e) (j : Nat) :
    frameAt e' j = frameAt e j := by
  simp only [frameAt, encodePorts_eq, hl, hp]

end

/-- Settles O40: the ports show the encoder's outcome for the operand, which is cut off at `cmd_len`. -/
theorem encoderPortsShowTheFrame : Obligations.EncoderPortsShowTheFrame := by
  refine ⟨fun P e => ⟨encOk_iff, frameLen_eq e, fun hfits => ?_, fun e' hl hd => ?_⟩, fun s e rest hin => ?_⟩
  · have hlen := length_portPayload hfits
    exact ⟨hlen, fun i => getElem?_portPayload, encoder_fits (hlen.symm ▸ hfits), fun j _ => frameAt_fits hfits j⟩
  · exact ⟨encOk_congr hl, frameLen_congr hl, fun j _ => frameAt_congr hl (portPayload_congr hl hd) j⟩
  · rw [step_of_cons hin, issue, encodePorts_eq]

/-! ### Clock cycles (R132, R134) -/

section
variable {s : State}

theorem step_of_nil (h : s.inputs = []) : step s = .next s := by
  rw [step, stepInputs, h]

/-- A received byte has the effect of its FEED: it decodes to the class it selects. -/
theorem issueCall_rx (b : Byte) : issueCall (.rx b) s = exec (.feed b) s :=
  (issueCall_ok rfl).trans (feedIsTheClassItsByteSelects s b).symm

end

/-- Settles O55. -/
theorem nothingHappensWithoutInput : Obligations.NothingHappensWithoutInput :=
  fun _ => ⟨step_of_nil, fun _ _ hin => step_of_cons hin⟩

/-- Settles O56: a cycle with reset is the hardware reset; one with a byte only issues the byte. -/
theorem clockCyclesResetOrFeed : Obligations.ClockCyclesResetOrFeed := by
  intro s v b rest
  refine ⟨fun hin => ⟨hardReset { s with inputs := rest }, step_of_cons hin, rfl, rfl, rfl, rfl⟩, fun hin => ?_⟩
  rw [step_of_cons hin]
  exact issueCall_rx b

end Sys2Proof.Proofs
end

section
/-! PROOFS. The model's own choices where the spec gives no behaviour: a row that does not apply, a store outside the
buffer, what the registers hold after reset, and a word of the opcode table placed before the step (log entries 1 to 3,
6 to 8). -/

namespace Sys2Proof.Proofs

open Sys2Proof.Machine Sys2Proof.Laws

/-! ### Rows that do not apply, and stores outside the buffer (log entries 7 and 8) -/

/-- Settles O19: the rows without a condition never meet the hypothesis; every other row's meaning is guarded. -/
theorem rowsThatDoNotApplyAreRefused : Obligations.RowsThatDoNotApplyAreRefused := fun _ _ => exec_refuses

/-- A payload byte whose cell lies outside the buffer fails the bounds check of R31. -/
theorem feed_payload_outside {P : Params} {d : Decoder} (b : Byte) (hst : d.st = .receivingPayload)
    (hc : P.rxCap ≤ d.cur) : feed P d b = .error .writeOutsideBuffer := by
  simp [feed, hst, memWrite_error b hc]

/-- Settles O20: FEED fails the bounds check, and the class its byte selects is FEED (O10). -/
theorem storesOutsideTheBufferFault : Obligations.StoresOutsideTheBufferFault := by
  intro s b hst hcur
  have hfeed : exec (.feed b) s = .fault .writeOutsideBuffer := by
    rw [exec_feed, feed_payload_outside b hst hcur]; rfl
  exact ⟨hfeed, (feedIsTheClassItsByteSelects s b).symm.trans hfeed⟩

/-! ### After reset (R23, R120) -/

/-- No cell is written by a reset, so each shows its free value (log entry 3). -/
@[simp] theorem cell_afterReset (n i : Nat) : cell (.afterReset n) i = Config.resetCell n i := rfl

/-- Settles O23: the reset decoder is that of reset number 0, and no FEED has given a result. -/
theorem resetLeavesAwaitingHeader : Obligations.ResetLeavesAwaitingHeader :=
  ⟨afterReset_st 0, rfl, afterReset_sum 0, afterReset_len 0, afterReset_cur 0, cell_afterReset 0⟩

/-! ### Words of the opcode table (log entry 6) -/

section
variable {P : Params} {m m' : Mode} {b : Byte} {c : Call} {nbits w : Nat} {i : Instr}

theorem tableTag_header_or_length (P : Params) (b : Byte) :
    tableTag P b = .awaitingHeader ∨ tableTag P b = .awaitingLength := by
  unfold tableTag
  split_ifs
  · exact .inr rfl
  · exact .inl rfl

/-- Under either tag of the table the class of a byte depends on the tag alone: `sum`, `len` and `cur` are not read. -/
theorem classify_eq_of_tableTag (hm : m.st = tableTag P b) (hm' : m'.st = tableTag P b) :
    classify P m b = classify P m' b := by
  rcases tableTag_header_or_length P b with htag | htag
  · simp only [classify, hm, hm', htag]
  · simp only [classify, hm, hm', htag]

/-- A call decodes as the table reads it in every mode with the table's tag; only a received byte looks at the mode. -/
theorem decode_eq_tableMode (hm : ∀ b, c = .rx b → m.st = tableTag P b) :
    decode P m c = decode P (tableMode P c) c := by
  cases c with
  | rx b => exact congrArg Except.ok (classify_eq_of_tableTag (hm b rfl) rfl)
  | feed | encode | frame | payload => rfl
  | view v => cases v <;> rfl

theorem decode_of_decodeTableWord (h : decodeTableWord nbits w = some i) :
    decode params (tableMode params (tableCall params nbits w)) (tableCall params nbits w) = .ok i := by
  unfold decodeTableWord at h
  split at h
  case h_1 k hk => cases h; exact hk
  case h_2 => cases h

/-- A placed byte puts the decoder under the table's tag. -/
theorem withFetchWord_st (s : State) (hc : tableCall params nbits w = .rx b) :
    (s.withFetchWord nbits w).dec.st = tableTag params b := by
  simp only [State.withFetchWord, placeTableWord, hc]

end

/-- Settles O57: the placed word is the next input, under a mode in which it decodes as the table reads it. -/
theorem placedTableWordsRun : Obligations.PlacedTableWordsRun := by
  intro s nbits w i hi
  have hdecode : decode params (s.withFetchWord nbits w).dec.mode (tableCall params nbits w) = .ok i :=
    (decode_eq_tableMode fun _ => withFetchWord_st s).trans (decode_of_decodeTableWord hi)
  exact (step_of_cons (withFetchWord_inputs nbits w)).trans (issueCall_ok hdecode)

end Sys2Proof.Proofs
end
